-- ==== Sys2Proof/Word.lean ====
section
/-! DEFINITION. The fixed widths of W4ON-CORE: bytes of the song buffer, 16-bit counters and frequencies, 32-bit
offsets and tone words (00_scope.md R11, R15; 92_eei_decisions.md D24). -/
namespace Sys2Proof

/-- A byte of the song buffer (20_memory.md R57, R58). -/
abbrev Byte := BitVec 8

/-- A 16-bit value: a tick counter (10_state.md R37, R38) or a frequency (40_codec_frequency.md R96). -/
abbrev Half := BitVec 16

/-- A 32-bit value: a buffer offset (00_scope.md R11) or a word of a tone event (47_synthesis_bridge.md R162). -/
abbrev Word := BitVec 32

end Sys2Proof
end

