-- ==== Sys2Proof/Config.lean ====
section
/-! DEFINITION. The named parameters of the block as types (00_scope.md section 4; 92_eei_decisions.md, last table): the
opcode layout, the segment mode, the packing of the duration word. The values W4ON-CORE gives them stand in
Sys2Proof/Machine/Params.lean and, for the layout, in Sys2Proof/Decode.lean. -/
namespace Sys2Proof

/-- NUM_TRACKS: track contexts (00_scope.md R8). -/
abbrev numTracks : Nat := 4

/-- MAX_TRACK_COUNT: the largest legal track count of a header (00_scope.md section 4, 41_init_parser.md R102). -/
abbrev maxTrackCount : Nat := 4

/-- SEG_MODE: which counter a segment-count marker writes (00_scope.md R10, 44_note_segment.md R138). -/
inductive SegMode where
  | deferred
  | immediate
  deriving DecidableEq, Repr

/-- DUR_PACK: whether the sustain ticks are masked to their byte (47_synthesis_bridge.md R166, D7). -/
inductive DurPack where
  | unmasked
  | masked
  deriving DecidableEq, Repr

/-- The twelve opcode categories, in the decreasing opcode order of 30_encoding.md R83. -/
inductive Category where
  | setarpspd | setpan | setrel | setsus | setdec | setatk | setvol | arp | seg | note | swait | lwait
  deriving DecidableEq, Repr

/-- LAYOUT: the base of every category and the two spans the source does not give (30_encoding.md R84). -/
structure Layout where
  setarpspd : Nat
  setpan : Nat
  setrel : Nat
  setsus : Nat
  setdec : Nat
  setatk : Nat
  setvol : Nat
  arp : Nat
  seg : Nat
  note : Nat
  swait : Nat
  lwait : Nat
  segSpan : Nat
  noteSpan : Nat
  deriving DecidableEq, Repr

end Sys2Proof
end

