-- ==== Sys2Proof/Machine/Params.lean ====
section
/-! DEFINITION. The values W4ON-CORE gives its parameters (00_scope.md section 4). Each is the spec's own decision where
the source is silent (92_eei_decisions.md D3, D4, D6, D7), UNVERIFIED against the original repository and UNSAFE for a claim
about it: log 8. -/
namespace Sys2Proof.Machine

/-- SEG_MODE of W4ON-CORE (00_scope.md R10, D3). -/
def segMode : SegMode := .deferred

/-- DUR_PACK of W4ON-CORE (47_synthesis_bridge.md R166, D7). -/
def durPack : DurPack := .unmasked

/-- FREQ_TABLE of W4ON-CORE (10_state.md R52, D4). -/
def freqTable : Vector Half 12 :=
  #v[28160, 29834, 31609, 33488, 35479, 37589, 39824, 42192, 44701, 47359, 50175, 53159]

/-- SUSVOL of W4ON-CORE: the volume scaled by the sustain ratio (47_synthesis_bridge.md R167, D6). -/
def susVol (vol sus : Byte) : Nat := vol.toNat * sus.toNat / 255

end Sys2Proof.Machine
end

