-- ==== Sys2Proof/Machine/State.lean ====
section
/-! DEFINITION. The state of W4ON-CORE (10_state.md), the host's commands and the replies to them, the reasons to stop,
and the state after reset (10_state.md R56, 70_reset_and_hazards.md R190). Plain data only. -/
namespace Sys2Proof.Machine

/-- The song buffer as the host has placed it: a list of (offset, byte) with strictly rising offsets. An offset that is
not listed holds no byte (log 4). -/
abbrev Memory := List Host.Cell

/-- S.STATUS (10_state.md R49); the value 3 is never written and is left out (93_implementation_defined.md U17). -/
inductive Status where
  /-- 0: after reset, before any INIT. -/
  | uninit
  /-- 1: the last INIT succeeded. -/
  | ready
  /-- 2: the last INIT was refused with MalformedHeader. -/
  | malformed
  deriving DecidableEq, Repr

/-- The cause of a track's fault, field FAULT (10_state.md R45, 60_exceptions.md R171). -/
inductive TrackFault where
  /-- 0: no fault. -/
  | none
  /-- 1: an operand, length or note-list byte would lie at or past END (60_exceptions.md R172). -/
  | truncatedStream
  /-- 2: an arpeggio step with ARPSPD 0 (60_exceptions.md R175). -/
  | arpSpeedZero
  /-- 3: a frequency lookup of a note index of 132 or more (60_exceptions.md R173). -/
  | badPitch
  deriving DecidableEq, Repr

/-- A track context (10_state.md section 2). -/
structure Track where
  /-- CUR, the offset of the next opcode (R22). -/
  cur : Word
  /-- END, one past the stream's last byte (R23). -/
  endOff : Word
  /-- CH, the channel id (R28). -/
  ch : BitVec 2
  /-- MODE, the pulse mode (R29). -/
  mode : BitVec 2
  /-- PAN (R30). -/
  pan : BitVec 2
  /-- VOL (R31). -/
  vol : Byte
  /-- ATK (R32). -/
  atk : Byte
  /-- DEC (R33). -/
  dec : Byte
  /-- SUS (R34). -/
  sus : Byte
  /-- REL (R35). -/
  rel : Byte
  /-- ARPSPD (R36). -/
  arpspd : Byte
  /-- ETL, remaining ticks of the event (R37). -/
  etl : Half
  /-- ELAP, elapsed ticks of the event (R38). -/
  elap : Half
  /-- ARPON, an arpeggio is active (R39). -/
  arpon : Bool
  /-- ARPPTR, the offset of the arpeggio's note list (R40). -/
  arpptr : Word
  /-- LAST, the last note or the arpeggio's count (R41). -/
  last : Byte
  /-- SEGL, notes of the running segment left (R42). -/
  segl : BitVec 9
  /-- SEGP, the pending segment count (R43). -/
  segp : BitVec 9
  /-- HALT (R44). -/
  halt : Bool
  /-- FAULT (R45). -/
  fault : TrackFault
  /-- PLAY, the track played in the last TICK (R46). -/
  play : Bool
  deriving DecidableEq, Repr

/-- The reset value of every track field (10_state.md section 2, R56). -/
def Track.reset : Track where
  cur := 0
  endOff := 0
  ch := 0
  mode := 0
  pan := 0
  vol := 100
  atk := 0
  dec := 0
  sus := 255
  rel := 0
  arpspd := 1
  etl := 0
  elap := 0
  arpon := false
  arpptr := 0
  last := 0
  segl := 0
  segp := 0
  halt := false
  fault := .none
  play := false

/-- A tone event: the index of the track that emitted it and the four words (10_state.md R53, 47_synthesis_bridge.md
R162). -/
structure ToneEvent where
  track : Fin numTracks
  freq : Word
  dur : Word
  vol : Word
  flags : Word
  deriving DecidableEq, Repr

/-- What the host may read between commands (10_state.md R55). -/
structure StatusView where
  status : Status
  ntrk : BitVec 3
  playing : Bool
  halt : Vector Bool numTracks
  fault : Vector TrackFault numTracks
  deriving DecidableEq, Repr

/-- What the host may do, one at a time (70_reset_and_hazards.md R193 to R195, R197). -/
inductive Command where
  /-- Reset (70_reset_and_hazards.md R190). -/
  | reset
  /-- Place one byte of the song buffer (70_reset_and_hazards.md R193, step 1; log 18). -/
  | place (a : Word) (b : Byte)
  /-- INIT(len) (41_init_parser.md R101). -/
  | init (len : Word)
  /-- TICK (42_tick_dispatcher.md R112). -/
  | tick
  /-- Read the status view (10_state.md R55). -/
  | readStatus
  deriving DecidableEq, Repr

/-- What a command returned to the host. -/
inductive Reply where
  /-- INIT's bit: the header was accepted (41_init_parser.md R101). -/
  | init (accepted : Bool)
  /-- TICK's bit (42_tick_dispatcher.md R123). -/
  | tick (playing : Bool)
  /-- The status view read (10_state.md R55). -/
  | status (v : StatusView)
  deriving DecidableEq, Repr

/-- Why a command stops the model. A track fault of 60_exceptions.md is no such stop: it is a next state. -/
inductive Fault where
  /-- Raised by a read of an offset below BUFLEN at which the host has placed no byte: `len` was not the true readable
  length (70_reset_and_hazards.md R195, 93_implementation_defined.md U9). SAFE: log 4. -/
  | unplacedByte (a : Nat)
  /-- Raised by a read at or past BUFLEN, where MemRead is not defined (20_memory.md R60); no run reaches it. SAFE: log 6. -/
  | outsideBuffer (a : Nat)
  /-- Raised by TICK when the host wrote the buffer after the INIT that parsed it: "the spec gives no meaning to any
  command after it until the next INIT" (70_reset_and_hazards.md R196). SAFE: log 5. -/
  | bufferChanged
  /-- Raised by an arpeggio step whose count LAST is 0, a modulus the spec does not define (00_scope.md R15,
  45_arpeggio.md R153); no run reaches it. SAFE: log 6. -/
  | emptyNoteList
  deriving DecidableEq, Repr

/-- Why an instruction has no meaning. -/
inductive Refusal where
  /-- Raised by an arm of `exec` whose instruction is not modelled. SAFE. No arm raises it. -/
  | notModelled (mnemonic : String)
  deriving DecidableEq, Repr

/-- The machine: the block's registers, the four track contexts, the frequency ROM, the output sequence, the host's
buffer, and four fields of the model's own. -/
structure State where
  /-- S.STATUS (10_state.md R49). -/
  status : Status
  /-- S.BUFLEN (10_state.md R50). -/
  buflen : Word
  /-- S.NTRK (10_state.md R51). -/
  ntrk : BitVec 3
  /-- S.PLAYING (10_state.md R51). -/
  playing : Bool
  /-- T[0]..T[3] (10_state.md R20). -/
  tracks : Vector Track numTracks
  /-- The frequency-table ROM (10_state.md R20, R52; log 13). -/
  rom : Vector Half 12
  /-- The output sequence, oldest event first (10_state.md R53). -/
  out : List ToneEvent
  /-- The song buffer, host memory (20_memory.md R57). -/
  mem : Memory
  /-- MODEL's own: the track being processed (47_synthesis_bridge.md R162; log 7). -/
  act : Fin numTracks
  /-- MODEL's own: the host wrote the buffer while an accepted header was in force (log 5). -/
  bufWritten : Bool
  /-- MODEL's own: the commands the host is going to issue, the next one first (log 1). -/
  cmds : List Command
  /-- MODEL's own: what the commands returned, the oldest first (log 3). -/
  replies : List Reply
  deriving DecidableEq, Repr

/-- The state after reset (10_state.md R56, 70_reset_and_hazards.md R190): every field of the spec at the value the spec
gives; no byte placed (log 4) and no command issued (log 1). -/
def State.reset : State where
  status := .uninit
  buflen := 0
  ntrk := 0
  playing := false
  tracks := Vector.replicate numTracks Track.reset
  rom := freqTable
  out := []
  mem := []
  act := 0
  bufWritten := false
  cmds := []
  replies := []

end Sys2Proof.Machine
end

