-- ==== Sys2Proof/Machine/Ops.lean ====
section
/-! DEFINITION. The named operations over the buffer, the track contexts and the output (00_scope.md R16), and the fault
action, the one shared way a track takes a fault (60_exceptions.md R174). There is no return from a fault (R182). -/
namespace Sys2Proof.Machine

/-- The byte placed at offset `a`, if any. -/
def Memory.read : Memory → Nat → Option Byte
  | [], _ => none
  | (k, b) :: m, a => if a = k then some b else Memory.read m a

/-- Place byte `b` at offset `a`, keeping the offsets strictly rising. -/
def Memory.write : Memory → Nat → Byte → Memory
  | [], a, b => [(a, b)]
  | (k, c) :: m, a, b =>
    if a < k then (a, b) :: (k, c) :: m
    else if a = k then (a, b) :: m
    else (k, c) :: Memory.write m a b

/-- The canonical form: strictly rising offsets, each of 32 bits. -/
abbrev Memory.wf (m : Memory) : Prop :=
  m.Pairwise (fun x y => x.1 < y.1) ∧ ∀ c ∈ m, c.1 < 2 ^ 32

/-- Place the bytes at `a`, `a + 1`, and so on. -/
def Memory.writeAll (m : Memory) (a : Nat) : List Byte → Memory
  | [] => m
  | b :: bs => Memory.writeAll (m.write a b) (a + 1) bs

/-- MemRead(a, 1), defined only below BUFLEN (20_memory.md R57, R60), on a byte the host has placed. -/
def memRead (s : State) (a : Nat) : Except Fault Byte :=
  if a < s.buflen.toNat then
    match s.mem.read a with
    | some b => .ok b
    | none => .error (.unplacedByte a)
  else .error (.outsideBuffer a)

/-- The bytes read at `a`, `a + 1`, ..., at most `n`, up to the first that cannot be read. -/
def readBytes (s : State) : Nat → Nat → List Byte
  | _, 0 => []
  | a, n + 1 =>
    match memRead s a with
    | .ok b => b :: readBytes s (a + 1) n
    | .error _ => []

/-- `t`, the context of the track being processed (00_scope.md R16). -/
def State.track (s : State) : Track := s.tracks[s.act]

/-- Write the context of the track being processed. -/
def State.setTrack (s : State) (t : Track) : State :=
  { s with tracks := s.tracks.set s.act.val t s.act.isLt }

/-- Emit(f, d, v, fl): append a tone event of the track being processed (47_synthesis_bridge.md R162). -/
def State.emit (s : State) (f d v fl : Word) : State :=
  { s with out := s.out ++ [⟨s.act, f, d, v, fl⟩] }

/-- The fault action for code `c` (60_exceptions.md R174): HALT <- 1, FAULT <- c, ETL <- 0 and nothing else. -/
def raiseFault (c : TrackFault) (s : State) : State :=
  s.setTrack { s.track with halt := true, fault := c, etl := 0 }

/-- Go on with the next state; a stop stays a stop. -/
def andThen (o : Host.Outcome State Fault Refusal) (k : State → Host.Outcome State Fault Refusal) :
    Host.Outcome State Fault Refusal :=
  match o with
  | .next s => k s
  | .fault f => .fault f
  | .refused r => .refused r

end Sys2Proof.Machine
end

