-- ==== Sys2Proof/Machine/HeaderParser.lean ====
section
/-! DEFINITION. The INIT command and the header parser (41_init_parser.md). -/
namespace Sys2Proof.Machine

/-- What parsing the track headers gives. -/
inductive Parsed where
  /-- Every requirement holds; the track contexts. -/
  | accepted (ts : Vector Track numTracks)
  /-- A requirement failed: MalformedHeader (60_exceptions.md R176). -/
  | malformed
  /-- A header byte could not be read (log 4). -/
  | stopped (f : Fault)
  deriving DecidableEq, Repr

/-- The context of a track whose header is at `p`, with end offset `e` (41_init_parser.md R104, R106). -/
def headerTrack (p e : Nat) (flags : Byte) : Track :=
  { Track.reset with
    cur := BitVec.ofNat 32 (p + 3), endOff := BitVec.ofNat 32 e
    ch := flags.extractLsb' 0 2, mode := flags.extractLsb' 2 2 }

/-- The big-endian stream size at `p` (41_init_parser.md R103, 20_memory.md R59). -/
def readSize (s : State) (p : Nat) : Except Fault Nat :=
  match memRead s p with
  | .error f => .error f
  | .ok hi =>
    match memRead s (p + 1) with
    | .error f => .error f
    | .ok lo => .ok (hi ++ lo).toNat

/-- The headers of `n` more tracks, the next one being track `i` at offset `p` (41_init_parser.md R103 to R105). -/
def parseHeaders (s : State) : Nat → Nat → Nat → Vector Track numTracks → Parsed
  | 0, _, _, ts => .accepted ts
  | n + 1, i, p, ts =>
    if s.buflen.toNat < p + 2 then .malformed
    else
      match readSize s p with
      | .error f => .stopped f
      | .ok size =>
        if size = 0 then .malformed
        else if s.buflen.toNat < p + 2 + size then .malformed
        else
          match memRead s (p + 2) with
          | .error f => .stopped f
          | .ok flags =>
            parseHeaders s n (i + 1) (p + 2 + size)
              (ts.setIfInBounds i (headerTrack p (p + 2 + size) flags))

/-- A track header and its stream: the size field, the flags byte, the opcode bytes (30_encoding.md R89). Bits 7..4 of the
flags byte may have any value (41_init_parser.md R104). -/
def trackBytes (flags : Byte) (stream : List Byte) : List Byte :=
  let size : Half := BitVec.ofNat 16 (stream.length + 1)
  [size.extractLsb' 8 8, size.setWidth 8, flags] ++ stream

/-- The headers and streams of the tracks in order. -/
def tracksBytes (tracks : List (Byte × List Byte)) : List Byte := tracks.flatMap fun t => trackBytes t.1 t.2

/-- A song buffer: the track count, then the tracks in order (30_encoding.md R89, 20_memory.md R64). -/
def songBytes (tracks : List (Byte × List Byte)) : List Byte := BitVec.ofNat 8 tracks.length :: tracksBytes tracks

/-- What INIT writes before it reads the header (41_init_parser.md R102). A write of the buffer before this INIT no longer
counts (70_reset_and_hazards.md R196). -/
def beginInit (len : Word) (s : State) : State :=
  { s with
    buflen := len, tracks := Vector.replicate numTracks Track.reset, ntrk := 0, playing := false
    bufWritten := false }

/-- INIT refused with MalformedHeader (41_init_parser.md R109). -/
def refuseInit (s : State) : State :=
  { s with
    tracks := Vector.replicate numTracks Track.reset, ntrk := 0, status := .malformed
    replies := s.replies ++ [.init false] }

/-- INIT accepted with the track count `n` (41_init_parser.md R108). -/
def acceptInit (n : Byte) (ts : Vector Track numTracks) (s : State) : State :=
  { s with tracks := ts, ntrk := n.setWidth 3, status := .ready, replies := s.replies ++ [.init true] }

/-- INIT(len) (41_init_parser.md R110). -/
def initCommand (len : Word) (s : State) : Host.Outcome State Fault Refusal :=
  let s0 := beginInit len s
  if len = 0 then .next (refuseInit s0)
  else
    match memRead s0 0 with
    | .error f => .fault f
    | .ok n =>
      if maxTrackCount < n.toNat then .next (refuseInit s0)
      else
        match parseHeaders s0 n.toNat 0 1 s0.tracks with
        | .accepted ts => .next (acceptInit n ts s0)
        | .malformed => .next (refuseInit s0)
        | .stopped f => .fault f

end Sys2Proof.Machine
end

