-- ==== Sys2Proof/Machine/Bridge.lean ====
section
/-! DEFINITION. The frequency lookup (40_codec_frequency.md R96, R97), the envelope engine (44_note_segment.md R141) and
the synthesis bridge's word packing (47_synthesis_bridge.md R165 to R169). -/
namespace Sys2Proof.Machine

/-- Freq(n) = FREQ_TABLE[n mod 12] >> (10 - n / 12) for n up to 131; none above, where the shift would be negative
(40_codec_frequency.md R96, R97). -/
def freq (rom : Vector Half 12) (n : Byte) : Option Half :=
  if n.toNat < 132 then
    some ((rom[n.toNat % 12]'(Nat.mod_lt _ (by decide))) >>> (10 - n.toNat / 12))
  else none

/-- The attack, decay and sustain ticks of a plain tone. -/
structure Envelope where
  attack : Nat
  decay : Nat
  sustain : Nat
  deriving DecidableEq, Repr

/-- Envelope(L, A, D) (44_note_segment.md R141). -/
def envelope (len atk dec : Nat) : Envelope where
  attack := min len atk
  decay := min dec (len - min len atk)
  sustain := len - min len atk - min dec (len - min len atk)

/-- PackDur(s, r, d, a) = s | r << 8 | d << 16 | a << 24; the masked form keeps 8 bits of the sustain
(47_synthesis_bridge.md R166). -/
def packDur (m : DurPack) (s : Nat) (r d a : Byte) : Word :=
  let sus : Word := match m with
    | .unmasked => BitVec.ofNat 32 s
    | .masked => BitVec.ofNat 32 (s % 256)
  sus ||| r.setWidth 32 <<< 8 ||| d.setWidth 32 <<< 16 ||| a.setWidth 32 <<< 24

/-- VolWord(t) = SUSVOL(VOL, SUS) | VOL << 8 (47_synthesis_bridge.md R167). -/
def volWord (t : Track) : Word := BitVec.ofNat 32 (susVol t.vol t.sus) ||| t.vol.setWidth 32 <<< 8

/-- FlagsWord(t) = CH | MODE << 2 | PAN << 4 (47_synthesis_bridge.md R168). -/
def flagsWord (t : Track) : Word :=
  t.ch.setWidth 32 ||| t.mode.setWidth 32 <<< 2 ||| t.pan.setWidth 32 <<< 4

/-- Emit a plain tone of frequency `f` and length `len`, with `guard` ticks added to its sustain after the envelope
split (44_note_segment.md R142, R143; 45_arpeggio.md R153). -/
def emitPlain (f : Half) (len guard : Nat) (s : State) : State :=
  let t := s.track
  let e := envelope len t.atk.toNat t.dec.toNat
  s.emit (f.setWidth 32)
    (packDur durPack (e.sustain + guard) t.rel (BitVec.ofNat 8 e.decay) (BitVec.ofNat 8 e.attack))
    (volWord t) (flagsWord t)

/-- Emit a slide from frequency `f0` to `f1` of length `len` (44_note_segment.md R144). -/
def emitSlide (f0 f1 : Half) (len : Nat) (s : State) : State :=
  let t := s.track
  s.emit (f0.setWidth 32 ||| f1.setWidth 32 <<< 16) (packDur durPack (len + 2) t.rel 0 0) (volWord t) (flagsWord t)

end Sys2Proof.Machine
end

