-- ==== Sys2Proof/Syntax.lean ====
section
/-! DEFINITION. The instructions of w4on-bytecode: one constructor per row of spec/opcode_table.json, with the operands
the encoding carries (30_encoding.md R73 to R76, R81, R82). -/
namespace Sys2Proof

/-- A variable-length field as it stands in the stream (30_encoding.md R78): the one-byte form V1 or the two-byte form
V2. The form is kept, since a V2 field of value below 128 is legal and longer than its canonical form (R79). -/
inductive LenField where
  | v1 (v : BitVec 7)
  | v2 (v : BitVec 15)
  deriving DecidableEq, Repr

/-- An instruction with its operands. UNKNOWN (46_waits.md R161) has no row in the table and no constructor here; the
dispatcher executes it by itself. -/
inductive Instr where
  /-- LWAIT (46_waits.md R160): the wait is the field's value plus 64. -/
  | lwait (l : LenField)
  /-- SWAIT (46_waits.md R159): `ticks` is 1 to 63. -/
  | swait (ticks : BitVec 6)
  /-- NOTE (44_note_segment.md R139). -/
  | note (pitch : Byte) (l : LenField)
  /-- SEG (44_note_segment.md R137). -/
  | seg (n : BitVec 9)
  /-- ARP (45_arpeggio.md R149): the length field, then the raw pitch bytes; their number is the opcode's count. -/
  | arp (l : LenField) (pitches : List Byte)
  /-- SETVOL (43_setters.md R135). -/
  | setvol (b : Byte)
  /-- SETATK (43_setters.md R134). -/
  | setatk (b : Byte)
  /-- SETDEC (43_setters.md R133). -/
  | setdec (b : Byte)
  /-- SETSUS (43_setters.md R132). -/
  | setsus (b : Byte)
  /-- SETREL (43_setters.md R131). -/
  | setrel (b : Byte)
  /-- SETPAN (43_setters.md R130): 0 center, 1 left, 2 right. -/
  | setpan (c : BitVec 2)
  /-- SETARPSPD (43_setters.md R129). -/
  | setarpspd (b : Byte)
  deriving DecidableEq, Repr

end Sys2Proof
end

