-- ==== Sys2Proof/WellFormed.lean ====
section
/-! DEFINITION. Which operand values have an encoding under a layout (30_encoding.md R81, R90), and the constraints a
layout meets (30_encoding.md R84). -/
namespace Sys2Proof

/-- The operands of `i` are among those that `lay` encodes (30_encoding.md R81, R84). -/
def Instr.wellFormedIn (lay : Layout) : Instr → Bool
  | .swait ticks => ticks != 0
  | .note pitch _ => decide (pitch.toNat < lay.noteSpan)
  | .seg n => decide (1 ≤ n.toNat ∧ n.toNat ≤ lay.segSpan)
  | .arp _ pitches => decide (2 ≤ pitches.length ∧ pitches.length ≤ 25)
  | .setpan c => decide (c.toNat ≤ 2)
  | .lwait _ => true
  | .setvol _ => true
  | .setatk _ => true
  | .setdec _ => true
  | .setsus _ => true
  | .setrel _ => true
  | .setarpspd _ => true

/-- The span of each category (30_encoding.md R84). -/
def Layout.span (lay : Layout) : Category → Nat
  | .setpan => 3
  | .arp => 24
  | .swait => 63
  | .seg => lay.segSpan
  | .note => lay.noteSpan
  | .setarpspd => 1
  | .setrel => 1
  | .setsus => 1
  | .setdec => 1
  | .setatk => 1
  | .setvol => 1
  | .lwait => 1

/-- The base opcode of each category (30_encoding.md R84). -/
def Layout.base (lay : Layout) : Category → Nat
  | .setarpspd => lay.setarpspd
  | .setpan => lay.setpan
  | .setrel => lay.setrel
  | .setsus => lay.setsus
  | .setdec => lay.setdec
  | .setatk => lay.setatk
  | .setvol => lay.setvol
  | .arp => lay.arp
  | .seg => lay.seg
  | .note => lay.note
  | .swait => lay.swait
  | .lwait => lay.lwait

/-- The opcodes of category `c` end at or below the base of the category above it (30_encoding.md R84). -/
def Layout.below (lay : Layout) (c above : Category) : Bool :=
  decide (lay.base c + lay.span c ≤ lay.base above)

/-- The constraints of 30_encoding.md R84: the spans the source leaves open are at least 1, every range lies inside
0..255, and each category's range lies wholly above the next one's in the order of R83. -/
def Layout.legal (lay : Layout) : Bool :=
  decide (1 ≤ lay.segSpan) && decide (1 ≤ lay.noteSpan) && decide (lay.setarpspd ≤ 255) &&
  lay.below .setpan .setarpspd && lay.below .setrel .setpan && lay.below .setsus .setrel &&
  lay.below .setdec .setsus && lay.below .setatk .setdec && lay.below .setvol .setatk &&
  lay.below .arp .setvol && lay.below .seg .arp && lay.below .note .seg &&
  lay.below .swait .note && lay.below .lwait .swait

end Sys2Proof
end

