-- ==== Sys2Proof/Decode.lean ====
section
/-! DEFINITION. The decoder of one instruction from the bytes at the cursor (30_encoding.md R72 to R88), total on any
bytes, and after it the encoder. Both take the layout; W4ON-CORE's is `w4onL1` (R85). -/
namespace Sys2Proof

/-- The dense layout W4ON-L1 (30_encoding.md R85). -/
def w4onL1 : Layout where
  lwait := 0
  swait := 1
  note := 64
  seg := 152
  arp := 223
  setvol := 247
  setatk := 248
  setdec := 249
  setsus := 250
  setrel := 251
  setpan := 252
  setarpspd := 255
  segSpan := 71
  noteSpan := 88

/-- `i` has an encoding under W4ON-L1. -/
def Instr.wellFormed (i : Instr) : Bool := i.wellFormedIn w4onL1

/-- Why no instruction was decoded, by name. -/
inductive DecodeError where
  /-- There is no byte to read (the dispatch loop never asks then, 42_tick_dispatcher.md R115). -/
  | noByte
  /-- An operand, length or note-list byte lies past the bytes given (30_encoding.md R80). -/
  | truncated (op : Byte)
  /-- The opcode belongs to no category of the layout (30_encoding.md R84, R86). -/
  | unknownOpcode (op : Byte)
  deriving DecidableEq, Repr

/-- The categories from the top down (30_encoding.md R83). -/
def topDown : List Category :=
  [.setarpspd, .setpan, .setrel, .setsus, .setdec, .setatk, .setvol, .arp, .seg, .note, .swait, .lwait]

/-- Category `c` owns opcode `op` (30_encoding.md R84). -/
def Layout.owns (lay : Layout) (op : Nat) (c : Category) : Bool :=
  decide (lay.base c ≤ op) && decide (op < lay.base c + lay.span c)

/-- Classification, "highest value checked first" (30_encoding.md R83, R84). -/
def classify (lay : Layout) (op : Byte) : Option Category :=
  topDown.find? (lay.owns op.toNat)

/-- Format F1: one immediate byte after the opcode (30_encoding.md R74). -/
def decodeImm (op : Byte) (mk : Byte → Instr) : List Byte → Except DecodeError (Instr × List Byte)
  | b :: rest => .ok (mk b, rest)
  | [] => .error (.truncated op)

/-- The variable-length field, high byte first (30_encoding.md R78, R59; 40_codec_frequency.md R92). -/
def decodeLen (op : Byte) : List Byte → Except DecodeError (LenField × List Byte)
  | [] => .error (.truncated op)
  | v0 :: rest =>
    if v0.msb then
      match rest with
      | [] => .error (.truncated op)
      | v1 :: rest' => .ok (.v2 (v0.setWidth 7 ++ v1), rest')
    else .ok (.v1 (v0.setWidth 7), rest)

/-- Format F2: a length field after the opcode (30_encoding.md R75). -/
def decodeF2 (op : Byte) (mk : LenField → Instr) (bytes : List Byte) : Except DecodeError (Instr × List Byte) :=
  match decodeLen op bytes with
  | .error e => .error e
  | .ok (l, rest) => .ok (mk l, rest)

/-- Format F3: a length field and `count` pitch bytes after the opcode (30_encoding.md R76). -/
def decodeF3 (op : Byte) (count : Nat) (bytes : List Byte) : Except DecodeError (Instr × List Byte) :=
  match decodeLen op bytes with
  | .error e => .error e
  | .ok (l, rest) =>
    if rest.length < count then .error (.truncated op)
    else .ok (.arp l (rest.take count), rest.drop count)

/-- The operands of an opcode of category `c` at offset `off` from its base (30_encoding.md R81, R82). -/
def decodeOperands (c : Category) (op : Byte) (off : Nat) (bytes : List Byte) :
    Except DecodeError (Instr × List Byte) :=
  match c with
  | .setarpspd => decodeImm op .setarpspd bytes
  | .setpan => .ok (.setpan (BitVec.ofNat 2 off), bytes)
  | .setrel => decodeImm op .setrel bytes
  | .setsus => decodeImm op .setsus bytes
  | .setdec => decodeImm op .setdec bytes
  | .setatk => decodeImm op .setatk bytes
  | .setvol => decodeImm op .setvol bytes
  | .arp => decodeF3 op (off + 2) bytes
  | .seg => .ok (.seg (BitVec.ofNat 9 (off + 1)), bytes)
  | .note => decodeF2 op (.note (BitVec.ofNat 8 off)) bytes
  | .swait => .ok (.swait (BitVec.ofNat 6 (off + 1)), bytes)
  | .lwait => decodeF2 op .lwait bytes

/-- One instruction from the front of the bytes, with the bytes after it, under the layout `lay`. -/
def decodeIn (lay : Layout) : List Byte → Except DecodeError (Instr × List Byte)
  | [] => .error .noByte
  | op :: rest =>
    match classify lay op with
    | none => .error (.unknownOpcode op)
    | some c => decodeOperands c op (op.toNat - lay.base c) rest

/-- The decoder of W4ON-CORE. -/
def decode (bytes : List Byte) : Except DecodeError (Instr × List Byte) := decodeIn w4onL1 bytes

/-- The bytes of a variable-length field (30_encoding.md R78). -/
def encodeLen : LenField → List Byte
  | .v1 v => [0#1 ++ v]
  | .v2 v => [1#1 ++ v.extractLsb' 8 7, v.setWidth 8]

/-- The opcode byte at offset `off` of category `c` (30_encoding.md R81). -/
def opcodeByte (lay : Layout) (c : Category) (off : Nat) : Byte := BitVec.ofNat 8 (lay.base c + off)

/-- The bytes of an instruction under the layout `lay`. -/
def encodeIn (lay : Layout) : Instr → List Byte
  | .lwait l => opcodeByte lay .lwait 0 :: encodeLen l
  | .swait ticks => [opcodeByte lay .swait (ticks.toNat - 1)]
  | .note pitch l => opcodeByte lay .note pitch.toNat :: encodeLen l
  | .seg n => [opcodeByte lay .seg (n.toNat - 1)]
  | .arp l pitches => opcodeByte lay .arp (pitches.length - 2) :: (encodeLen l ++ pitches)
  | .setvol b => [opcodeByte lay .setvol 0, b]
  | .setatk b => [opcodeByte lay .setatk 0, b]
  | .setdec b => [opcodeByte lay .setdec 0, b]
  | .setsus b => [opcodeByte lay .setsus 0, b]
  | .setrel b => [opcodeByte lay .setrel 0, b]
  | .setpan c => [opcodeByte lay .setpan c.toNat]
  | .setarpspd b => [opcodeByte lay .setarpspd 0, b]

/-- The encoder of W4ON-CORE. -/
def encode (i : Instr) : List Byte := encodeIn w4onL1 i

/-- The longest instruction in bytes: an ARP with a V2 length and 25 pitches (30_encoding.md R76, R77). -/
abbrev maxInstrBytes : Nat := 28

/-- The bytes of an instruction whose bits are `w`, byte k being bits 8k+7..8k of `w`, zero above `nbits`. -/
def tableBytes (nbits w : Nat) : List Byte :=
  (List.range maxInstrBytes).map fun k => BitVec.ofNat 8 ((w % 2 ^ nbits) >>> (8 * k))

/-- The instruction the decoder reads from an instruction of the opcode table whose bits are `w`. -/
def decodeTableWord (nbits w : Nat) : Option Instr :=
  match decode (tableBytes nbits w) with
  | .ok (i, _) => some i
  | .error _ => none

end Sys2Proof
end

