-- ==== Sys2Proof/Machine/Operands.lean ====
section
/-! DEFINITION. The operand forms: the value and size of a length field, the size of an instruction, and the truncation
check made before any effect (30_encoding.md R77, R78, R80). -/
namespace Sys2Proof

/-- The value of a length field, zero-extended to 16 bits (30_encoding.md R78, 40_codec_frequency.md R92). -/
def LenField.value : LenField → Half
  | .v1 v => v.setWidth 16
  | .v2 v => v.setWidth 16

/-- `vl`, the bytes of a length field (30_encoding.md R77). -/
def LenField.size : LenField → Nat
  | .v1 _ => 1
  | .v2 _ => 2

/-- The length of an instruction in bytes (30_encoding.md R77). -/
def Instr.size : Instr → Nat
  | .lwait l => 1 + l.size
  | .swait _ => 1
  | .note _ l => 1 + l.size
  | .seg _ => 1
  | .arp l pitches => 1 + l.size + pitches.length
  | .setvol _ => 2
  | .setatk _ => 2
  | .setdec _ => 2
  | .setsus _ => 2
  | .setrel _ => 2
  | .setpan _ => 1
  | .setarpspd _ => 2

namespace Machine

/-- `avail = END - CUR`, the bytes left in the track's stream (30_encoding.md R80). -/
def Track.avail (t : Track) : Nat := t.endOff.toNat - t.cur.toNat

/-- CUR advanced by `n` bytes (10_state.md R27). -/
def Track.advanced (t : Track) (n : Nat) : Word := t.cur + BitVec.ofNat 32 n

/-- An instruction of `n` bytes: TRUNCATED_STREAM when they do not lie before END, else its effect
(30_encoding.md R80, 60_exceptions.md R172). -/
def withBytes (n : Nat) (effect : State → State) (s : State) : Host.Outcome State Fault Refusal :=
  if n ≤ s.track.avail then .next (effect s) else .next (raiseFault .truncatedStream s)

end Machine
end Sys2Proof
end

