-- ==== Sys2Proof/Machine/Arpeggio.lean ====
section
/-! DEFINITION. The arpeggio instruction and the arpeggio step (45_arpeggio.md R149 to R157). -/
namespace Sys2Proof.Machine

/-- The effect of an ARP whose bytes lie before END (45_arpeggio.md R149 to R152). -/
def arpEffect (l : LenField) (pitches : List Byte) (s : State) : State :=
  s.setTrack { s.track with
    arpptr := s.track.advanced (1 + l.size)
    arpon := true
    last := BitVec.ofNat 8 pitches.length
    etl := l.value
    elap := 0
    cur := s.track.advanced (1 + l.size + pitches.length) }

/-- ARP (45_arpeggio.md R149). -/
def execArp (l : LenField) (pitches : List Byte) (s : State) : Host.Outcome State Fault Refusal :=
  withBytes (1 + l.size + pitches.length) (arpEffect l pitches) s

/-- The step index k = (ELAP / ARPSPD) mod LAST (45_arpeggio.md R153). -/
def Track.arpIndex (t : Track) : Nat := t.elap.toNat / t.arpspd.toNat % t.last.toNat

/-- The retrigger of pitch `p`: BAD_PITCH, or a plain tone of length ARPSPD (45_arpeggio.md R153, R155). -/
def retrigger (p : Byte) (s : State) : State :=
  match freq s.rom p with
  | some f => emitPlain f s.track.arpspd.toNat 0 s
  | none => raiseFault .badPitch s

/-- ArpStep(t) (45_arpeggio.md R153 to R155). -/
def arpStep (s : State) : Host.Outcome State Fault Refusal :=
  let t := s.track
  if t.arpspd = 0 then .next (raiseFault .arpSpeedZero s)
  else if t.elap.toNat % t.arpspd.toNat ≠ 0 then .next s
  else if t.last = 0 then .fault .emptyNoteList
  else
    match memRead s (t.arpptr.toNat + t.arpIndex) with
    | .error f => .fault f
    | .ok p => .next (retrigger p s)

end Sys2Proof.Machine
end

