-- ==== Sys2Proof/Machine/Notes.lean ====
section
/-! DEFINITION. The segment-count marker and the note (44_note_segment.md R137 to R147). -/
namespace Sys2Proof.Machine

/-- The counter a segment-count marker writes in each SEG_MODE (44_note_segment.md R137, R138). -/
def markSegments (m : SegMode) (n : BitVec 9) (t : Track) : Track :=
  match m with
  | .deferred => { t with segp := n }
  | .immediate => { t with segl := n }

/-- SEG (44_note_segment.md R137): format F0, no truncation is possible. -/
def execSeg (n : BitVec 9) (s : State) : Host.Outcome State Fault Refusal :=
  .next (s.setTrack { markSegments segMode n s.track with cur := s.track.advanced 1 })

/-- The event a completed NOTE starts: LAST, ETL, ELAP, ARPON and CUR (44_note_segment.md R145, R146). -/
def startNote (pitch : Byte) (l : LenField) (s : State) : State :=
  s.setTrack { s.track with
    last := pitch, etl := l.value, elap := 0, arpon := false, cur := s.track.advanced (1 + l.size) }

/-- A NOTE with SEGL > 0, a slide from LAST (44_note_segment.md R139, R144). -/
def slideNote (pitch : Byte) (l : LenField) (s : State) : State :=
  match freq s.rom s.track.last, freq s.rom pitch with
  | some f0, some f1 =>
    let s1 := emitSlide f0 f1 l.value.toNat s
    startNote pitch l (s1.setTrack { s1.track with segl := s1.track.segl - 1 })
  | _, _ => raiseFault .badPitch s

/-- A NOTE with SEGL = 0, a plain tone; with SEGP > 0 it carries the pop-guard and starts the pending run
(44_note_segment.md R139, R142, R143). -/
def plainNote (pitch : Byte) (l : LenField) (s : State) : State :=
  match freq s.rom pitch with
  | some f =>
    if s.track.segp = 0 then startNote pitch l (emitPlain f l.value.toNat 0 s)
    else
      let s1 := emitPlain f l.value.toNat 2 s
      startNote pitch l (s1.setTrack { s1.track with segl := s1.track.segp, segp := 0 })
  | none => raiseFault .badPitch s

/-- The effect of a NOTE whose bytes lie before END (44_note_segment.md R139, R140). -/
def noteEffect (pitch : Byte) (l : LenField) (s : State) : State :=
  if s.track.segl = 0 then plainNote pitch l s else slideNote pitch l s

/-- NOTE (44_note_segment.md R139). -/
def execNote (pitch : Byte) (l : LenField) (s : State) : Host.Outcome State Fault Refusal :=
  withBytes (1 + l.size) (noteEffect pitch l) s

end Sys2Proof.Machine
end

