-- ==== Sys2Proof/Machine/Setters.lean ====
section
/-! DEFINITION. The seven setters (43_setters.md R129 to R136). -/
namespace Sys2Proof.Machine

/-- The effect of a setter: its field as `f` writes it, then CUR advanced by the instruction's bytes. -/
def setField (n : Nat) (f : Track → Track) (s : State) : State :=
  s.setTrack { f s.track with cur := s.track.advanced n }

/-- SETARPSPD (43_setters.md R129). -/
def execSetarpspd (b : Byte) (s : State) : Host.Outcome State Fault Refusal :=
  withBytes 2 (setField 2 fun t => { t with arpspd := b }) s

/-- SETPAN (43_setters.md R130): format F0, no truncation is possible. -/
def execSetpan (c : BitVec 2) (s : State) : Host.Outcome State Fault Refusal :=
  .next (setField 1 (fun t => { t with pan := c }) s)

/-- SETREL (43_setters.md R131). -/
def execSetrel (b : Byte) (s : State) : Host.Outcome State Fault Refusal :=
  withBytes 2 (setField 2 fun t => { t with rel := b }) s

/-- SETSUS (43_setters.md R132). -/
def execSetsus (b : Byte) (s : State) : Host.Outcome State Fault Refusal :=
  withBytes 2 (setField 2 fun t => { t with sus := b }) s

/-- SETDEC (43_setters.md R133). -/
def execSetdec (b : Byte) (s : State) : Host.Outcome State Fault Refusal :=
  withBytes 2 (setField 2 fun t => { t with dec := b }) s

/-- SETATK (43_setters.md R134). -/
def execSetatk (b : Byte) (s : State) : Host.Outcome State Fault Refusal :=
  withBytes 2 (setField 2 fun t => { t with atk := b }) s

/-- SETVOL (43_setters.md R135). -/
def execSetvol (b : Byte) (s : State) : Host.Outcome State Fault Refusal :=
  withBytes 2 (setField 2 fun t => { t with vol := b }) s

end Sys2Proof.Machine
end

