-- ==== Sys2Proof/Machine/Waits.lean ====
section
/-! DEFINITION. The waits and the unknown opcode (46_waits.md R159 to R161). -/
namespace Sys2Proof.Machine

/-- The effect of a wait of `n` ticks in an instruction of `len` bytes (46_waits.md R159, R160). -/
def startWait (n : Half) (len : Nat) (s : State) : State :=
  s.setTrack { s.track with etl := n, elap := 0, arpon := false, cur := s.track.advanced len }

/-- SWAIT (46_waits.md R159): format F0, no truncation is possible. -/
def execSwait (ticks : BitVec 6) (s : State) : Host.Outcome State Fault Refusal :=
  .next (startWait (ticks.setWidth 16) 1 s)

/-- LWAIT (46_waits.md R160). -/
def execLwait (l : LenField) (s : State) : Host.Outcome State Fault Refusal :=
  withBytes (1 + l.size) (startWait (l.value + 64) (1 + l.size)) s

/-- UNKNOWN (46_waits.md R161): the opcode is skipped. It never occurs under W4ON-L1. -/
def execUnknown (s : State) : Host.Outcome State Fault Refusal :=
  .next (s.setTrack { s.track with cur := s.track.advanced 1 })

end Sys2Proof.Machine
end

