-- ==== Sys2Proof/Machine/Dispatch.lean ====
section
/-! DEFINITION. One arm per instruction: the execution of an instruction of the track being processed
(42_tick_dispatcher.md R116). -/
namespace Sys2Proof.Machine

def exec (i : Instr) (s : State) : Host.Outcome State Fault Refusal :=
  match i with
  | .lwait l => Sys2Proof.Machine.execLwait l s
  | .swait ticks => Sys2Proof.Machine.execSwait ticks s
  | .note pitch l => Sys2Proof.Machine.execNote pitch l s
  | .seg n => Sys2Proof.Machine.execSeg n s
  | .arp l pitches => Sys2Proof.Machine.execArp l pitches s
  | .setvol b => Sys2Proof.Machine.execSetvol b s
  | .setatk b => Sys2Proof.Machine.execSetatk b s
  | .setdec b => Sys2Proof.Machine.execSetdec b s
  | .setsus b => Sys2Proof.Machine.execSetsus b s
  | .setrel b => Sys2Proof.Machine.execSetrel b s
  | .setpan c => Sys2Proof.Machine.execSetpan c s
  | .setarpspd b => Sys2Proof.Machine.execSetarpspd b s

end Sys2Proof.Machine
end

