-- ==== Sys2Proof/Machine/Flags.lean ====
section
/-! DEFINITION. The status bits. The block has no condition flags (10_state.md R47): the status bits are ARPON, HALT and
PLAY of each track and S.PLAYING. Here stand what TICK computes from them and the status view of the host. -/
namespace Sys2Proof.Machine

/-- TICK's result: at least one track's event step ran, which is what its PLAY bit says (42_tick_dispatcher.md R121,
R123; log 15). -/
def anyPlaying (s : State) : Bool :=
  s.tracks[0].play || s.tracks[1].play || s.tracks[2].play || s.tracks[3].play

/-- PLAY <- 0 at the start of the processing of track `i` (42_tick_dispatcher.md R114). -/
def beginTrack (i : Fin numTracks) (s : State) : State :=
  { s with act := i, tracks := s.tracks.set i.val { s.tracks[i] with play := false } i.isLt }

/-- PLAY <- 1 at the event step (42_tick_dispatcher.md R121). -/
def markPlaying (s : State) : State := s.setTrack { s.track with play := true }

/-- The condition of the dispatch loop (42_tick_dispatcher.md R115): ETL = 0, HALT = 0 and CUR < END. -/
def Track.ready (t : Track) : Bool := t.etl == 0 && !t.halt && decide (t.cur.toNat < t.endOff.toNat)

/-- What the host reads between commands (10_state.md R55). -/
def State.statusView (s : State) : StatusView where
  status := s.status
  ntrk := s.ntrk
  playing := s.playing
  halt := #v[s.tracks[0].halt, s.tracks[1].halt, s.tracks[2].halt, s.tracks[3].halt]
  fault := #v[s.tracks[0].fault, s.tracks[1].fault, s.tracks[2].fault, s.tracks[3].fault]

/-- The two bits of S.STATUS (10_state.md R49). -/
def Status.code : Status → BitVec 2
  | .uninit => 0
  | .ready => 1
  | .malformed => 2

/-- The two bits of FAULT (60_exceptions.md R171). -/
def TrackFault.code : TrackFault → BitVec 2
  | .none => 0
  | .truncatedStream => 1
  | .arpSpeedZero => 2
  | .badPitch => 3

end Sys2Proof.Machine
end

