-- ==== Sys2Proof/Machine/Tick.lean ====
section
/-! DEFINITION. The TICK command: the dispatch loop and the event step of each track (42_tick_dispatcher.md). -/
namespace Sys2Proof.Machine

/-- How many bytes an instruction at CUR can have: those before END, at most the longest instruction
(30_encoding.md R77, R80). -/
def Track.window (t : Track) : Nat := min t.avail maxInstrBytes

/-- The bytes fetched at CUR. None of them lies at or past END (30_encoding.md R80). -/
def fetch (s : State) : List Byte := readBytes s s.track.cur.toNat s.track.window

/-- What an undecodable window means: UNKNOWN is skipped; a window cut short by a byte that cannot be read stops; a
window cut short by END is TRUNCATED_STREAM (42_tick_dispatcher.md R116; 60_exceptions.md R172, R177). -/
def undecoded (e : DecodeError) (s : State) : Host.Outcome State Fault Refusal :=
  match e with
  | .unknownOpcode _ => execUnknown s
  | .noByte | .truncated _ =>
    if (fetch s).length < s.track.window then
      match memRead s (s.track.cur.toNat + (fetch s).length) with
      | .error f => .fault f
      | .ok _ => .next (raiseFault .truncatedStream s)
    else .next (raiseFault .truncatedStream s)

/-- Execute(t): fetch, decode and execute the instruction at CUR (42_tick_dispatcher.md R116). -/
def executeOne (s : State) : Host.Outcome State Fault Refusal :=
  match decode (fetch s) with
  | .ok (i, _) => exec i s
  | .error e => undecoded e s

/-- The dispatch loop (42_tick_dispatcher.md R115). The fuel is END - CUR, which is enough: every instruction advances
CUR by at least 1 or halts the track (R119). -/
def dispatchLoop : Nat → State → Host.Outcome State Fault Refusal
  | 0, s => .next s
  | n + 1, s => if s.track.ready then andThen (executeOne s) (dispatchLoop n) else .next s

/-- ELAP <- ELAP + 1, ETL <- ETL - 1 (42_tick_dispatcher.md R122). -/
def countTick (s : State) : State :=
  s.setTrack { s.track with elap := s.track.elap + 1, etl := s.track.etl - 1 }

/-- The counters change unless the arpeggio step halted the track (42_tick_dispatcher.md R122). -/
def countUnlessHalted (s : State) : Host.Outcome State Fault Refusal :=
  if s.track.halt then .next s else .next (countTick s)

/-- The event step (42_tick_dispatcher.md R120 to R122). -/
def eventStep (s : State) : Host.Outcome State Fault Refusal :=
  if s.track.halt || s.track.etl == 0 then .next s
  else if s.track.arpon then andThen (arpStep (markPlaying s)) countUnlessHalted
  else .next (countTick (markPlaying s))

/-- The processing of one track in a TICK (42_tick_dispatcher.md R113 to R124). -/
def processTrack (i : Fin numTracks) (s : State) : Host.Outcome State Fault Refusal :=
  let s0 := beginTrack i s
  if s0.track.halt then .next s0
  else andThen (dispatchLoop s0.track.avail s0) eventStep

/-- The tracks in the order given, each whole before the next (42_tick_dispatcher.md R113). -/
def processTracks : List (Fin numTracks) → State → Host.Outcome State Fault Refusal
  | [], s => .next s
  | i :: rest, s => andThen (processTrack i s) (processTracks rest)

/-- The end of a TICK: S.PLAYING and the command's result (42_tick_dispatcher.md R123). -/
def endTick (s : State) : State :=
  { s with playing := anyPlaying s, act := 0, replies := s.replies ++ [.tick (anyPlaying s)] }

/-- TICK (42_tick_dispatcher.md R112, R124). -/
def tick (s : State) : Host.Outcome State Fault Refusal :=
  if s.status ≠ .ready then .next { s with playing := false, replies := s.replies ++ [.tick false] }
  else if s.bufWritten then .fault .bufferChanged
  else andThen (processTracks [0, 1, 2, 3] s) fun s' => .next (endTick s')

end Sys2Proof.Machine
end

