-- ==== Sys2Proof/Machine/Commands.lean ====
section
/-! DEFINITION. The host's commands (70_reset_and_hazards.md R190 to R196). -/
namespace Sys2Proof.Machine

/-- Reset (70_reset_and_hazards.md R190). The host's buffer, its commands to come, the replies it has had and the ROM are
not the block's to reset (log 12). -/
def resetBlock (s : State) : State :=
  { State.reset with rom := s.rom, mem := s.mem, cmds := s.cmds, replies := s.replies }

/-- The host places a byte of the buffer; while an accepted header is in force a write below BUFLEN breaks the host's
duty (20_memory.md R71, 70_reset_and_hazards.md R196; log 5). -/
def placeByte (a : Word) (b : Byte) (s : State) : State :=
  { s with
    mem := s.mem.write a.toNat b
    bufWritten := s.bufWritten || (decide (s.status = .ready) && decide (a.toNat < s.buflen.toNat)) }

/-- The host reads the status view (10_state.md R55). -/
def readStatus (s : State) : State := { s with replies := s.replies ++ [.status s.statusView] }

/-- One host command, one atomic step (00_scope.md R13). -/
def runCommand (c : Command) (s : State) : Host.Outcome State Fault Refusal :=
  match c with
  | .reset => .next (resetBlock s)
  | .place a b => .next (placeByte a b s)
  | .init len => initCommand len s
  | .tick => tick s
  | .readStatus => .next (readStatus s)

/-- `s` with the one-track song of `stream` placed from offset 0, track 0 at its first opcode, and a TICK next: what placing
that song and an accepted INIT set up, and nothing else (log 2). -/
def loadStream (stream : List Byte) (s : State) : State :=
  { s with
    mem := s.mem.writeAll 0 (songBytes [(0, stream)])
    buflen := BitVec.ofNat 32 (stream.length + 4)
    status := .ready
    ntrk := 1
    bufWritten := false
    tracks := s.tracks.set 0 { s.tracks[0] with
      cur := 4, endOff := BitVec.ofNat 32 (stream.length + 4), etl := 0, halt := false, fault := .none }
    cmds := .tick :: s.cmds }

/-- The bytes of the table word's own instruction, without the zero bytes after it. -/
def tableInstrBytes (nbits w : Nat) : List Byte :=
  match decodeTableWord nbits w with
  | some i => (tableBytes nbits w).take i.size
  | none => tableBytes nbits w

end Sys2Proof.Machine
end

