-- ==== Sys2Proof/Machine/Step.lean ====
section
/-! DEFINITION. One step of the machine: the next host command, whole (00_scope.md R7, R13; 70_reset_and_hazards.md R201).
The three outcomes are those of Host.Outcome. -/
namespace Sys2Proof.Machine

/-- One step: the host's next command. With none issued the block is idle and keeps all its state
(60_exceptions.md R189; log 1). -/
def step (s : State) : Host.Outcome State Fault Refusal :=
  match s.cmds with
  | [] => .next s
  | c :: rest => runCommand c { s with cmds := rest }

/-- `s` with the table's instruction as the whole stream of track 0 and a TICK as the next command, so that the next step
fetches and runs exactly it (log 2). -/
def State.withFetchWord (s : State) (nbits w : Nat) : State := loadStream (tableInstrBytes nbits w) s

end Sys2Proof.Machine
end

