-- ==== Sys2Proof/Machine/Assembler.lean ====
section
/-! DEFINITION. The spec's own assembler syntax and pseudo-instructions (30_encoding.md R90, R91), and the canonical
length encoder (40_codec_frequency.md R95). Nothing of the block depends on this file. -/
namespace Sys2Proof.Machine

/-- The canonical length field of `v` (30_encoding.md R79). -/
def canonicalLen (v : BitVec 15) : LenField :=
  if v.toNat ≤ 127 then .v1 (v.setWidth 7) else .v2 v

/-- EncodeLength(v) (40_codec_frequency.md R95). -/
def encodeLength (v : BitVec 15) : List Byte := encodeLen (canonicalLen v)

/-- A line of the assembler syntax with its decimal operands (30_encoding.md R90), or a pseudo-instruction (R91). -/
inductive AsmLine where
  | setarpspd (b : Nat)
  | setrel (b : Nat)
  | setsus (b : Nat)
  | setdec (b : Nat)
  | setatk (b : Nat)
  | setvol (b : Nat)
  | setpan (c : Nat)
  | seg (n : Nat)
  | note (p len : Nat)
  | arp (len : Nat) (ps : List Nat)
  | swait (t : Nat)
  | lwait (t : Nat)
  | rawBytes (bs : List Nat)
  | wait (t : Nat)
  | rest (t : Nat)
  | adsr (a d s r : Nat)
  | slide (n : Nat)
  deriving DecidableEq, Repr

/-- The encoding of `i`, or nothing when its operands were not `ok`. -/
def encodeIf (ok : Bool) (i : Instr) : Option (List Byte) := if ok then some (encode i) else none

/-- A setter line: its operand is 0 to 255. -/
def asmByte (mk : Byte → Instr) (b : Nat) : Option (List Byte) := encodeIf (decide (b ≤ 255)) (mk (BitVec.ofNat 8 b))

/-- SEG n, n in 1..71. -/
def asmSeg (n : Nat) : Option (List Byte) := encodeIf (decide (1 ≤ n ∧ n ≤ 71)) (.seg (BitVec.ofNat 9 n))

/-- SWAIT t, t in 1..63. -/
def asmSwait (t : Nat) : Option (List Byte) := encodeIf (decide (1 ≤ t ∧ t ≤ 63)) (.swait (BitVec.ofNat 6 t))

/-- LWAIT t, t in 64..32831, encoded with L = t - 64. -/
def asmLwait (t : Nat) : Option (List Byte) :=
  encodeIf (decide (64 ≤ t ∧ t ≤ 32831)) (.lwait (canonicalLen (BitVec.ofNat 15 (t - 64))))

/-- WAIT t: SWAIT t up to 63, LWAIT t above (30_encoding.md R91). -/
def asmWait (t : Nat) : Option (List Byte) := if t ≤ 63 then asmSwait t else asmLwait t

/-- The bytes of one line; nothing when an operand is outside its range (30_encoding.md R90, R91). -/
def assembleLine : AsmLine → Option (List Byte)
  | .setarpspd b => asmByte .setarpspd b
  | .setrel b => asmByte .setrel b
  | .setsus b => asmByte .setsus b
  | .setdec b => asmByte .setdec b
  | .setatk b => asmByte .setatk b
  | .setvol b => asmByte .setvol b
  | .setpan c => encodeIf (decide (c ≤ 2)) (.setpan (BitVec.ofNat 2 c))
  | .seg n => asmSeg n
  | .note p len =>
    encodeIf (decide (p ≤ 87 ∧ len ≤ 32767)) (.note (BitVec.ofNat 8 p) (canonicalLen (BitVec.ofNat 15 len)))
  | .arp len ps =>
    encodeIf (decide (2 ≤ ps.length ∧ ps.length ≤ 25 ∧ len ≤ 32767) && ps.all fun p => decide (p ≤ 255))
      (.arp (canonicalLen (BitVec.ofNat 15 len)) (ps.map (BitVec.ofNat 8)))
  | .swait t => asmSwait t
  | .lwait t => asmLwait t
  | .rawBytes bs => if bs.all fun b => decide (b ≤ 255) then some (bs.map (BitVec.ofNat 8)) else none
  | .wait t => asmWait t
  | .rest t => asmWait t
  | .adsr a d s r =>
    match asmByte .setatk a, asmByte .setdec d, asmByte .setsus s, asmByte .setrel r with
    | some a', some d', some s', some r' => some (a' ++ d' ++ s' ++ r')
    | _, _, _, _ => none
  | .slide n => asmSeg n

/-- The stream of a track's lines. -/
def assembleStream : List AsmLine → Option (List Byte)
  | [] => some []
  | l :: ls =>
    match assembleLine l, assembleStream ls with
    | some b, some bs => some (b ++ bs)
    | _, _ => none

/-- The flags byte of `.track CH, MODE`, bits 7..4 zero (30_encoding.md R89, R90). -/
def asmFlags (ch mode : BitVec 2) : Byte := 0#4 ++ mode ++ ch

/-- The flags bytes and streams of the tracks, each introduced by `.track CH, MODE` (30_encoding.md R90). -/
def assembleTracks : List (BitVec 2 × BitVec 2 × List AsmLine) → Option (List (Byte × List Byte))
  | [] => some []
  | (ch, mode, ls) :: rest =>
    match assembleStream ls, assembleTracks rest with
    | some b, some r => if b.length ≤ 65534 then some ((asmFlags ch mode, b) :: r) else none
    | _, _ => none

/-- A whole song, `.tracks N` first (30_encoding.md R89, R90). -/
def assembleSong (tracks : List (BitVec 2 × BitVec 2 × List AsmLine)) : Option (List Byte) :=
  if tracks.length ≤ maxTrackCount then (assembleTracks tracks).map songBytes else none

end Sys2Proof.Machine
end

