-- ==== Sys2Proof/Safety.lean ====
section
/-! DEFINITION. The terms the statements use: what an instruction leaves unchanged, what a completed instruction does, the
invariant of the machine, and runs of several TICKs. -/
namespace Sys2Proof.Machine

/-- Everything outside the context of the track being processed and the output sequence is unchanged: the block registers,
the other tracks' contexts, the ROM, every byte of the buffer, and the model's own fields (10_state.md R21, R54). -/
structure SameElsewhere (s s' : State) : Prop where
  status : s'.status = s.status
  buflen : s'.buflen = s.buflen
  ntrk : s'.ntrk = s.ntrk
  playing : s'.playing = s.playing
  others : ∀ j : Fin numTracks, j ≠ s.act → s'.tracks[j] = s.tracks[j]
  rom : s'.rom = s.rom
  mem : ∀ a, s'.mem.read a = s.mem.read a
  act : s'.act = s.act
  bufWritten : s'.bufWritten = s.bufWritten
  cmds : s'.cmds = s.cmds
  replies : s'.replies = s.replies

/-- The outcome is a next state in which the context of the track being processed is exactly `t`, exactly the events `evs`
have been emitted, and everything else is unchanged. -/
def ResultIs (o : Host.Outcome State Fault Refusal) (s : State) (t : Track) (evs : List ToneEvent) : Prop :=
  ∃ s', o = .next s' ∧ s'.track = t ∧ s'.out = s.out ++ evs ∧ SameElsewhere s s'

/-- The instruction completes: its outcome is as `ResultIs` says. -/
def CompletesWith (i : Instr) (s : State) (t : Track) (evs : List ToneEvent) : Prop := ResultIs (exec i s) s t evs

/-- The outcome is the fault action for code `c` and nothing else (60_exceptions.md R174): HALT, FAULT and ETL of the track
being processed, no event, everything else unchanged. -/
def TakesFault (o : Host.Outcome State Fault Refusal) (s : State) (c : TrackFault) : Prop :=
  ResultIs o s { s.track with halt := true, fault := c, etl := 0 } []

/-- What holds of every track context between commands under W4ON-L1 (10_state.md section 2). -/
structure Track.Inv (buflen : Word) (t : Track) : Prop where
  /-- R24: the cursor never exceeds the stream-end offset. -/
  cur_le : t.cur.toNat ≤ t.endOff.toNat
  /-- R24: the stream-end offset never exceeds the buffer's length. -/
  end_le : t.endOff.toNat ≤ buflen.toNat
  /-- R30: PAN is never 3. -/
  pan_le : t.pan.toNat ≤ 2
  /-- R37, R38: the counters of one event, at most the longest wait. -/
  ticks_le : t.etl.toNat + t.elap.toNat ≤ 32831
  /-- 44_note_segment.md R147: LAST is a NOTE's pitch or an ARP's count. -/
  last_le : t.last.toNat ≤ 87
  /-- R42 under W4ON-L1. -/
  segl_le : t.segl.toNat ≤ 71
  /-- R43 under W4ON-L1. -/
  segp_le : t.segp.toNat ≤ 71
  /-- The note list pointer's legal values (the table of 10_state.md section 2). -/
  arpptr_le : t.arpptr.toNat ≤ t.endOff.toNat
  /-- R40: while an arpeggio is active its whole note list lies before END, and it has at least two notes. -/
  arp_list : t.arpon = true → 2 ≤ t.last.toNat ∧ t.arpptr.toNat + t.last.toNat ≤ t.endOff.toNat
  /-- 60_exceptions.md R174: a halted track has ETL = 0. -/
  halt_etl : t.halt = true → t.etl = 0
  /-- R45: FAULT records a cause exactly when HALT is set. -/
  halt_fault : t.halt = true ↔ t.fault ≠ .none

/-- The invariant of the machine between commands. -/
structure Inv (s : State) : Prop where
  /-- The buffer is in canonical form. -/
  mem_wf : s.mem.wf
  /-- 10_state.md R52: the ROM holds FREQ_TABLE. -/
  rom_eq : s.rom = freqTable
  /-- No track is being processed (log 7). -/
  act_eq : s.act = 0
  /-- 10_state.md R51. -/
  ntrk_le : s.ntrk.toNat ≤ maxTrackCount
  /-- Every track context. -/
  tracks : ∀ i : Fin numTracks, s.tracks[i].Inv s.buflen
  /-- 41_init_parser.md R107: unused contexts keep their reset values. -/
  unused : ∀ i : Fin numTracks, s.ntrk.toNat ≤ i.val → s.tracks[i] = Track.reset
  /-- 10_state.md R51: no track is in use unless the last INIT succeeded. -/
  not_ready : s.status ≠ .ready → s.ntrk = 0
  /-- 42_tick_dispatcher.md R123: S.PLAYING is the result of the last TICK, which the PLAY bits record (log 15). -/
  playing_eq : s.playing = anyPlaying s

/-- The streams of the tracks are disjoint and in track order (20_memory.md R66). -/
def StreamsInOrder (s : State) : Prop :=
  ∀ i j : Fin numTracks, i.val < j.val → j.val < s.ntrk.toNat → s.tracks[i].endOff.toNat ≤ s.tracks[j].cur.toNat

/-- The running arpeggios' note lists lie in their own streams too: no track reads below the end of an earlier track's stream
(20_memory.md R66). -/
def StreamsApart (s : State) : Prop :=
  StreamsInOrder s ∧ ∀ i j : Fin numTracks, i.val < j.val → j.val < s.ntrk.toNat → s.tracks[j].arpon = true →
    s.tracks[i].endOff.toNat ≤ s.tracks[j].arpptr.toNat

/-- `s2` is the state that the dispatch loop of track `i`, not halted, leaves in a TICK that starts in `s`: the state in
which the track's event step is decided (42_tick_dispatcher.md R114, R115, R120). -/
def LoopLeaves (i : Fin numTracks) (s s2 : State) : Prop :=
  s.tracks[i].halt = false ∧ dispatchLoop (beginTrack i s).track.avail (beginTrack i s) = .next s2

/-- The event step of track `i` runs in a TICK that starts in `s`: the track is not halted, and its dispatch loop leaves it
not halted with ETL > 0 (42_tick_dispatcher.md R114, R115, R120). -/
def EventStepRuns (i : Fin numTracks) (s : State) : Prop :=
  ∃ s2, LoopLeaves i s s2 ∧ s2.track.halt = false ∧ s2.track.etl ≠ 0

/-- The tones of the arpeggio of `t`, on track `i`, whose elapsed tick `j * ARPSPD` lies from `e` up to, not including,
`e + k`, in the order of `j`: the j-th is a plain tone of length ARPSPD of the frequency `f (j mod LAST)`
(45_arpeggio.md R153, R156). -/
def retriggers (i : Fin numTracks) (f : Nat → Half) (t : Track) (e k : Nat) : List ToneEvent :=
  ((List.range (e + k)).filter fun j => e ≤ j * t.arpspd.toNat ∧ j * t.arpspd.toNat < e + k).map fun j =>
    ⟨i, (f (j % t.last.toNat)).setWidth 32,
      packDur durPack (envelope t.arpspd.toNat t.atk.toNat t.dec.toNat).sustain t.rel
        (BitVec.ofNat 8 (envelope t.arpspd.toNat t.atk.toNat t.dec.toNat).decay)
        (BitVec.ofNat 8 (envelope t.arpspd.toNat t.atk.toNat t.dec.toNat).attack),
      volWord t, flagsWord t⟩

/-- The host keeps its duties of 70_reset_and_hazards.md R195 and R196: the buffer was not written since INIT, and `len` was
its true readable length. -/
def HostKeepsDuties (s : State) : Prop :=
  s.bufWritten = false ∧ ∀ a, a < s.buflen.toNat → (s.mem.read a).isSome = true

/-- `n` TICK commands, one after the other. -/
def ticks : Nat → State → Host.Outcome State Fault Refusal
  | 0, s => .next s
  | n + 1, s => andThen (tick s) (ticks n)

end Sys2Proof.Machine
end

