-- ==== Sys2Proof/Certificates/Slice0/Obligations.lean ====
section
/-! DEFINITION. The statements for the provers. -/
open Sys2Proof Sys2Proof.Machine

/-- The offset of the first opcode of track `i` of a song: its header's offset plus 3, the first header being at offset 1 and
each next one at the previous stream's end (41_init_parser.md R103 to R105). -/
def Sys2Proof.streamStart (song : List (Byte × List Byte)) (i : Nat) : Nat :=
  4 + ((song.take i).map fun t => t.2.length + 3).sum

/-- The host has placed the byte of `bytes` at each of the offsets below `n`. -/
def Sys2Proof.Placed (m : Memory) (bytes : List Byte) (n : Nat) : Prop :=
  ∀ k, k < n → k < bytes.length → m.read k = bytes[k]?

/-! ### Encoding -/

/-- Decoding an encoded instruction gives it back and consumes exactly its bytes, under every legal layout, for every
instruction the layout encodes, with every operand at every value (30_encoding.md R73 to R78, R81, R82, R84). Marked
in the spec: R77 (derived); R84 (decision D2). -/
def Obligations.DecodeOfEncodeGivesItBack : Prop :=
  ∀ lay : Layout, lay.legal = true → ∀ i : Instr, i.wellFormedIn lay = true → ∀ rest : List Byte,
    decodeIn lay (encodeIn lay i ++ rest) = .ok (i, rest)

/-- Bytes that decode are the encoding of a well-formed instruction of the stated length, followed by the bytes left:
every byte sequence has one meaning, under every legal layout (30_encoding.md R72, R77, R88). Marked in the spec: R72,
R77, R88 (derived). -/
def Obligations.DecodedBytesAreTheEncoding : Prop :=
  ∀ lay : Layout, lay.legal = true → ∀ (bytes : List Byte) (i : Instr) (rest : List Byte),
    decodeIn lay bytes = .ok (i, rest) →
      i.wellFormedIn lay = true ∧ bytes = encodeIn lay i ++ rest ∧ bytes.length = i.size + rest.length

/-- UnknownOpcode (R177, R161): it never occurs under W4ON-L1; under another layout an opcode of no category is UNKNOWN,
and executing it advances CUR by 1 and changes nothing else. That UNKNOWN is run by the dispatcher and has no
constructor is log 17. Marked in the spec: R161, R177 (decision D33). -/
def Obligations.UnknownOpcodeIsSkipped : Prop :=
  (∀ (bytes : List Byte) (op : Byte), decode bytes ≠ .error (.unknownOpcode op)) ∧
  (∀ (lay : Layout) (op : Byte) (rest : List Byte), (∀ c, lay.owns op.toNat c = false) →
    decodeIn lay (op :: rest) = .error (.unknownOpcode op)) ∧
  (∀ (op : Byte) (s : State),
    ResultIs (undecoded (.unknownOpcode op) s) s { s.track with cur := s.track.cur + 1 } [])

/-- Instruction words written out from the opcode table of 30_encoding.md R85 decode to what they stand for. Marked in the
spec: R85 (decision D2). -/
def Obligations.WordsOfTheTableDecode : Prop :=
  decode [0x00, 0x81, 0x00] = .ok (.lwait (.v2 256), []) ∧ decode [0x3F] = .ok (.swait 63, []) ∧
  decode [0x68, 0x0A] = .ok (.note 40 (.v1 10), []) ∧ decode [0xDE] = .ok (.seg 71, []) ∧
  decode [0xE0, 0x08, 0x28, 0x2C, 0x2F] = .ok (.arp (.v1 8) [40, 44, 47], []) ∧
  decode [0xF7, 0x32] = .ok (.setvol 50, []) ∧ decode [0xF8, 0x02] = .ok (.setatk 2, []) ∧
  decode [0xF9, 0x03] = .ok (.setdec 3, []) ∧ decode [0xFA, 0x80] = .ok (.setsus 128, []) ∧
  decode [0xFB, 0x04] = .ok (.setrel 4, []) ∧ decode [0xFE] = .ok (.setpan 2, []) ∧
  decode [0xFF, 0x02] = .ok (.setarpspd 2, [])

/-- EncodeLength and ReadLength (R95): one byte up to 127, two bytes above, and reading gives the value and the byte count
back. Marked in the spec: R95 (derived). -/
def Obligations.LengthCodecRoundTrips : Prop :=
  ∀ v : BitVec 15,
    (v.toNat ≤ 127 → encodeLength v = [BitVec.ofNat 8 v.toNat]) ∧
    (128 ≤ v.toNat →
      encodeLength v = [0x80#8 ||| BitVec.ofNat 8 (v.toNat / 256), BitVec.ofNat 8 (v.toNat % 256)]) ∧
    ∀ (op : Byte) (rest : List Byte), ∃ l, decodeLen op (encodeLength v ++ rest) = .ok (l, rest) ∧
      l.value.toNat = v.toNat ∧ l.size = if v.toNat ≤ 127 then 1 else 2

/-- The variable-length field (R78), canonical or not: with the high bit clear the byte is the value; with it set the
other seven bits are the high byte of a 15-bit big-endian value. -/
def Obligations.LengthFieldValue : Prop :=
  ∀ (op v0 : Byte) (rest : List Byte),
    (v0.toNat < 128 → ∃ l, decodeLen op (v0 :: rest) = .ok (l, rest) ∧ l.value.toNat = v0.toNat ∧ l.size = 1) ∧
    (128 ≤ v0.toNat → ∀ v1 : Byte, ∃ l, decodeLen op (v0 :: v1 :: rest) = .ok (l, rest) ∧
      l.value.toNat = (v0.toNat - 128) * 256 + v1.toNat ∧ l.size = 2)

/-- Of an instruction cut short the decoder says that it is truncated, naming the opcode (30_encoding.md R80). Marked in
the spec: R80 (decision D29). -/
def Obligations.CutInstructionIsTruncated : Prop :=
  ∀ i : Instr, i.wellFormed = true → ∀ n, 0 < n → n < i.size →
    ∃ op, (encode i).head? = some op ∧ decode ((encode i).take n) = .error (.truncated op)

/-! ### Instructions -/

/-- The seven setters (43_setters.md R129 to R135): each completes whenever its bytes lie before END (SETPAN, format F0,
always), writes its byte into its own field and advances CUR, and does nothing else. Marked in the spec: R129
(decision D2, D13); R130, R131, R132, R133, R134, R135 (decision D2). -/
def Obligations.SettersWriteTheirField : Prop :=
  ∀ s : State,
    (2 ≤ s.track.avail → ∀ b : Byte,
      CompletesWith (.setarpspd b) s { s.track with arpspd := b, cur := s.track.cur + 2 } [] ∧
      CompletesWith (.setrel b) s { s.track with rel := b, cur := s.track.cur + 2 } [] ∧
      CompletesWith (.setsus b) s { s.track with sus := b, cur := s.track.cur + 2 } [] ∧
      CompletesWith (.setdec b) s { s.track with dec := b, cur := s.track.cur + 2 } [] ∧
      CompletesWith (.setatk b) s { s.track with atk := b, cur := s.track.cur + 2 } [] ∧
      CompletesWith (.setvol b) s { s.track with vol := b, cur := s.track.cur + 2 } []) ∧
    ∀ c : BitVec 2, CompletesWith (.setpan c) s { s.track with pan := c, cur := s.track.cur + 1 } []

/-- SEG (44_note_segment.md R137, R138): in W4ON-CORE's DEFERRED mode it writes the pending count and advances CUR by 1,
and nothing else; the IMMEDIATE build option writes the running count instead. The mode is log 8's. Marked in the
spec: R137 (decision D2, D3, D28); R138 (decision D3). -/
def Obligations.SegWritesThePendingCount : Prop :=
  (∀ (n : BitVec 9) (s : State),
    CompletesWith (.seg n) s { s.track with segp := n, cur := s.track.cur + 1 } []) ∧
  ∀ (n : BitVec 9) (t : Track), markSegments .immediate n t = { t with segl := n }

/-- A NOTE with SEGL = 0 (44_note_segment.md R139 to R143, R145, R146): one plain tone of the envelope of its length, with
2 more sustain ticks when a count is pending, which becomes the running count; a new event of L ticks; no arpeggio.
Marked in the spec: R139 (decision D2, D3, D5, D8, D9, D12); R141 (derived); R143 (decision D3, D8); R146 (decision
D12). -/
def Obligations.PlainNoteCompletes : Prop :=
  ∀ (s : State) (pitch : Byte) (l : LenField) (f : Half),
    1 + l.size ≤ s.track.avail → s.track.segl = 0 → freq s.rom pitch = some f →
    CompletesWith (.note pitch l) s
      { s.track with
        last := pitch, etl := l.value, elap := 0, arpon := false
        segl := s.track.segp, segp := 0, cur := s.track.cur + BitVec.ofNat 32 (1 + l.size) }
      [⟨s.act, f.setWidth 32,
        packDur durPack
          ((envelope l.value.toNat s.track.atk.toNat s.track.dec.toNat).sustain + if s.track.segp = 0 then 0 else 2)
          s.track.rel
          (BitVec.ofNat 8 (envelope l.value.toNat s.track.atk.toNat s.track.dec.toNat).decay)
          (BitVec.ofNat 8 (envelope l.value.toNat s.track.atk.toNat s.track.dec.toNat).attack),
        volWord s.track, flagsWord s.track⟩]

/-- A NOTE with SEGL > 0 (44_note_segment.md R139, R140, R144 to R146): one slide from the pitch in LAST, of sustain L + 2
and release REL, without attack and decay; one segment fewer left; a new event of L ticks; no arpeggio. Marked in the
spec: R139 (decision D2, D3, D5, D8, D9, D12); R144 (decision D9); R146 (decision D12). -/
def Obligations.SlideNoteCompletes : Prop :=
  ∀ (s : State) (pitch : Byte) (l : LenField) (f0 f1 : Half),
    1 + l.size ≤ s.track.avail → s.track.segl ≠ 0 →
    freq s.rom s.track.last = some f0 → freq s.rom pitch = some f1 →
    CompletesWith (.note pitch l) s
      { s.track with
        last := pitch, etl := l.value, elap := 0, arpon := false
        segl := s.track.segl - 1, cur := s.track.cur + BitVec.ofNat 32 (1 + l.size) }
      [⟨s.act, f0.setWidth 32 ||| f1.setWidth 32 <<< 16, packDur durPack (l.value.toNat + 2) s.track.rel 0 0,
        volWord s.track, flagsWord s.track⟩]

/-- A NOTE that would look up a note index of 132 or more (R173, the NOTE's part): BAD_PITCH before any other effect.
Marked in the spec: R173 (decision D5). -/
def Obligations.NoteTakesBadPitch : Prop :=
  ∀ (s : State) (pitch : Byte) (l : LenField), 1 + l.size ≤ s.track.avail →
    132 ≤ pitch.toNat ∨ (s.track.segl ≠ 0 ∧ 132 ≤ s.track.last.toNat) →
    TakesFault (exec (.note pitch l) s) s .badPitch

/-- ARP (45_arpeggio.md R149 to R152): it records the note list's offset, which lies with all its bytes before END, and
the count, starts an event of L ticks and an arpeggio, emits nothing and touches no segment count. Marked in the spec:
R149 (decision D2, D11, D12); R150 (derived); R151 (decision D11). -/
def Obligations.ArpStartsAnArpeggio : Prop :=
  ∀ (s : State) (l : LenField) (pitches : List Byte),
    (Instr.arp l pitches).wellFormed = true → (Instr.arp l pitches).size ≤ s.track.avail →
    ∃ t : Track, CompletesWith (.arp l pitches) s t [] ∧
      t = { s.track with
        arpptr := t.arpptr, arpon := true, last := t.last, etl := l.value, elap := 0, cur := t.cur } ∧
      t.last.toNat = pitches.length ∧
      t.arpptr.toNat = s.track.cur.toNat + 1 + l.size ∧
      t.cur.toNat = t.arpptr.toNat + pitches.length ∧
      t.arpptr.toNat + t.last.toNat ≤ s.track.endOff.toNat

/-- SWAIT and LWAIT (46_waits.md R159, R160): a rest of `ticks`, or of the field's value plus 64, ticks; ELAP and ARPON
are cleared and CUR advances; no tone. Marked in the spec: R159, R160 (decision D2, D12). -/
def Obligations.WaitsStartARest : Prop :=
  (∀ (s : State) (ticks : BitVec 6), ∃ n : Half, n.toNat = ticks.toNat ∧
    CompletesWith (.swait ticks) s
      { s.track with etl := n, elap := 0, arpon := false, cur := s.track.cur + 1 } []) ∧
  ∀ (s : State) (l : LenField), 1 + l.size ≤ s.track.avail → ∃ n : Half, n.toNat = l.value.toNat + 64 ∧
    CompletesWith (.lwait l) s
      { s.track with etl := n, elap := 0, arpon := false, cur := s.track.cur + BitVec.ofNat 32 (1 + l.size) } []

/-- The truncation check (30_encoding.md R80): an instruction of format F1, F2 or F3 whose bytes do not all lie before END
takes TRUNCATED_STREAM with no other effect, even where another fault would follow (60_exceptions.md R180); one of
format F0 (SWAIT, SEG, SETPAN) takes no fault. Marked in the spec: R80 (decision D29); R180 (decision D15 and
derived). -/
def Obligations.TruncationIsCheckedFirst : Prop :=
  ∀ (i : Instr) (s : State),
    match i with
    | .swait _ | .seg _ | .setpan _ =>
      ∃ s', exec i s = .next s' ∧ s'.track.halt = s.track.halt ∧ s'.track.fault = s.track.fault
    | _ => s.track.avail < i.size → TakesFault (exec i s) s .truncatedStream

/-- TruncatedStream in the stream (60_exceptions.md R172): where the stream ends inside an instruction, executing it is
the fault action with code 1. Marked in the spec: R172 (derived). -/
def Obligations.StreamEndInsideInstructionFaults : Prop :=
  ∀ (s : State) (i : Instr), i.wellFormed = true → s.track.ready = true → s.track.avail < i.size →
    fetch s = (encode i).take s.track.avail →
    TakesFault (executeOne s) s .truncatedStream

/-- The fault action (R174): HALT, FAULT and ETL of the track and nothing else; a fault taken in the dispatch loop ends
the track's processing in this TICK, whatever fuel is left; and a halted track's processing only clears PLAY, and
leaves the other tracks, the block registers, the ROM, the buffer and the output alone. The field `act` is log 7's.
Marked in the spec: R174 (decision D25, D29, D32). -/
def Obligations.FaultActionEndsTheTrack : Prop :=
  (∀ (s : State) (c : TrackFault), TakesFault (.next (raiseFault c s)) s c) ∧
  (∀ (s : State) (c : TrackFault) (n : Nat), s.track.ready = true → executeOne s = .next (raiseFault c s) →
    andThen (dispatchLoop (n + 1) s) eventStep = .next (raiseFault c s)) ∧
  ∀ (i : Fin numTracks) (s : State), s.tracks[i].halt = true →
    ∃ s', processTrack i s = .next s' ∧ s'.out = s.out ∧ s'.tracks[i] = { s.tracks[i] with play := false } ∧
      SameElsewhere { s with act := i } s'

/-! ### Functional units -/

/-- The envelope engine (R141). Marked in the spec: R141 (derived). -/
def Obligations.EnvelopeSplitsTheLength : Prop :=
  ∀ len atk dec : Nat, atk ≤ 255 → dec ≤ 255 → len ≤ 32767 →
    (envelope len atk dec).attack = min len atk ∧
    (envelope len atk dec).decay = min dec (len - (envelope len atk dec).attack) ∧
    (envelope len atk dec).sustain = len - (envelope len atk dec).attack - (envelope len atk dec).decay ∧
    (envelope len atk dec).attack ≤ 255 ∧ (envelope len atk dec).decay ≤ 255 ∧
    (envelope len atk dec).sustain ≤ 32767 ∧
    (envelope len atk dec).attack + (envelope len atk dec).decay + (envelope len atk dec).sustain = len

/-- The duration word of W4ON-CORE's tones (47_synthesis_bridge.md R166, R169): the packing every tone uses is the
unmasked OR of the four fields; attack and decay in bytes 3 and 2, the sustain's low byte in byte 0, and in byte 1 the
release ORed with the sustain's bits 15..8; the masked option, which no tone uses, keeps the release byte. The packing
chosen is log 8's. Marked in the spec: R166 (decision D7); R169 (derived). -/
def Obligations.DurationWordPacksFourFields : Prop :=
  durPack = .unmasked ∧
  ∀ (sus : Nat) (r d a : Byte), sus < 2 ^ 16 →
    (packDur durPack sus r d a).toNat =
      sus ||| (r.toNat <<< 8) ||| (d.toNat <<< 16) ||| (a.toNat <<< 24) ∧
    (packDur durPack sus r d a).extractLsb' 24 8 = a ∧ (packDur durPack sus r d a).extractLsb' 16 8 = d ∧
    (packDur durPack sus r d a).extractLsb' 8 8 = r ||| BitVec.ofNat 8 (sus / 256) ∧
    (packDur durPack sus r d a).extractLsb' 0 8 = BitVec.ofNat 8 sus ∧
    (packDur .masked sus r d a).extractLsb' 8 8 = r

/-- The volume word (R167): floor(VOL * SUS / 255) below VOL, bits 31..16 zero; the scaled volume is at most 255 and is
VOL when SUS is 255. The formula is log 8's. Marked in the spec: R167 (decision D6). -/
def Obligations.VolumeWordScalesBySustain : Prop :=
  ∀ t : Track,
    (volWord t).toNat = (t.vol.toNat * t.sus.toNat / 255) ||| (t.vol.toNat <<< 8) ∧
    (volWord t).toNat < 2 ^ 16 ∧ susVol t.vol t.sus ≤ 255 ∧ (t.sus = 255 → susVol t.vol t.sus = t.vol.toNat)

/-- The flags word (R168): channel id, pulse mode and pan, bits 31..6 zero. -/
def Obligations.FlagsWordPacksChannelModePan : Prop :=
  ∀ t : Track, (flagsWord t).toNat = t.ch.toNat + 4 * t.mode.toNat + 16 * t.pan.toNat ∧ (flagsWord t).toNat < 64

/-- The frequency lookup (R96): the table's entry of the note within its octave, shifted right once for each octave below
the tenth, whatever the ROM holds. -/
def Obligations.FrequencyIsTheShiftedTableEntry : Prop :=
  ∀ (rom : Vector Half 12) (n : Byte), n.toNat ≤ 131 → ∃ f, freq rom n = some f ∧
    f.toNat = (rom[n.toNat % 12]'(Nat.mod_lt _ (by decide))).toNat / 2 ^ (10 - n.toNat / 12) ∧
    f = rom[n.toNat % 12]'(Nat.mod_lt _ (by decide)) >>> (10 - n.toNat / 12)

/-- The frequency ROM: its twelve entries (10_state.md R52), which it holds at reset; and what Freq then gives (R98): at
most 53159 for every note, at most 4186 up to note 87. The entries 1..10 of the table are the spec's own (log 8); that
the ROM is a field of State is log 13's. Marked in the spec: R52 (decision D4 and derived); R98 (derived). -/
def Obligations.FrequencyFitsItsHalf : Prop :=
  State.reset.rom.toList.map BitVec.toNat =
    [28160, 29834, 31609, 33488, 35479, 37589, 39824, 42192, 44701, 47359, 50175, 53159] ∧
  State.reset.rom = freqTable ∧
  ∀ (n : Byte) (f : Half), freq freqTable n = some f →
    f.toNat ≤ 53159 ∧ f.toNat < 2 ^ 16 ∧ (n.toNat ≤ 87 → f.toNat ≤ 4186)

/-! ### The arpeggio and event steps -/

/-- The event step of a running arpeggio that does not fault (45_arpeggio.md R153, 42_tick_dispatcher.md R121, R122): the
track is marked playing and its counters move; on a tick whose elapsed count is a multiple of ARPSPD it emits one
plain tone of length ARPSPD of pitch k = (ELAP / ARPSPD) mod LAST of the list, and on any other tick nothing. Marked
in the spec: R153 (decision D10). -/
def Obligations.ArpeggioStepRetriggers : Prop :=
  ∀ s : State, s.track.halt = false → s.track.etl ≠ 0 → s.track.arpon = true → s.track.arpspd ≠ 0 →
    (s.track.elap.toNat % s.track.arpspd.toNat ≠ 0 →
      ResultIs (eventStep s) s
        { s.track with play := true, elap := s.track.elap + 1, etl := s.track.etl - 1 } []) ∧
    ∀ (p : Byte) (f : Half), s.track.elap.toNat % s.track.arpspd.toNat = 0 → s.track.last ≠ 0 →
      memRead s (s.track.arpptr.toNat + s.track.elap.toNat / s.track.arpspd.toNat % s.track.last.toNat) = .ok p →
      freq s.rom p = some f →
      ResultIs (eventStep s) s
        { s.track with play := true, elap := s.track.elap + 1, etl := s.track.etl - 1 }
        [⟨s.act, f.setWidth 32,
          packDur durPack (envelope s.track.arpspd.toNat s.track.atk.toNat s.track.dec.toNat).sustain s.track.rel
            (BitVec.ofNat 8 (envelope s.track.arpspd.toNat s.track.atk.toNat s.track.dec.toNat).decay)
            (BitVec.ofNat 8 (envelope s.track.arpspd.toNat s.track.atk.toNat s.track.dec.toNat).attack),
          volWord s.track, flagsWord s.track⟩]

/-- The event step's two faults (45_arpeggio.md R154, R155; 60_exceptions.md R180): ARPSPD = 0 is ARP_SPEED_ZERO, whatever
the list holds; a pitch byte of 132 or more reached by the step is BAD_PITCH. The track halts, marked playing, its
ELAP unchanged, and nothing is emitted. Marked in the spec: R154 (decision D13, D31); R155 (decision D5); R180
(decision D15 and derived). -/
def Obligations.ArpeggioStepFaults : Prop :=
  ∀ s : State, s.track.halt = false → s.track.etl ≠ 0 → s.track.arpon = true →
    (s.track.arpspd = 0 →
      ResultIs (eventStep s) s
        { s.track with play := true, halt := true, fault := .arpSpeedZero, etl := 0 } []) ∧
    (s.track.arpspd ≠ 0 → s.track.elap.toNat % s.track.arpspd.toNat = 0 → s.track.last ≠ 0 → ∀ p : Byte,
      132 ≤ p.toNat →
      memRead s (s.track.arpptr.toNat + s.track.elap.toNat / s.track.arpspd.toNat % s.track.last.toNat) = .ok p →
      ResultIs (eventStep s) s
        { s.track with play := true, halt := true, fault := .badPitch, etl := 0 } [])

/-- The event step without an arpeggio (42_tick_dispatcher.md R120 to R122): a track with ETL > 0 is marked playing, ELAP
counts up and ETL down; a halted track or one with ETL = 0 takes no event step. -/
def Obligations.EventStepCounts : Prop :=
  ∀ s : State,
    (s.track.halt = false → s.track.etl ≠ 0 → s.track.arpon = false →
      ResultIs (eventStep s) s
        { s.track with play := true, elap := s.track.elap + 1, etl := s.track.etl - 1 } []) ∧
    (s.track.halt = true ∨ s.track.etl = 0 → eventStep s = .next s)

/-! ### TICK -/

/-- A step runs the instruction decoded. Executing at CUR is `exec` of the instruction decoded there; and a step on a TICK
whose first track is ready is `exec` of the instruction decoded at its CUR, then the rest of that track's dispatch
loop, its event step, the other three tracks and the end of the TICK (42_tick_dispatcher.md R113, R116, R124). Marked
in the spec: R113 (decision D15); R124 (decision D14, D15, D31). -/
def Obligations.StepRunsTheDecodedInstruction : Prop :=
  (∀ (s : State) (i : Instr) (rest : List Byte), decode (fetch s) = .ok (i, rest) → executeOne s = exec i s) ∧
  ∀ (s s0 : State) (q : List Command) (i : Instr) (rest : List Byte),
    s.cmds = .tick :: q → s.status = .ready → s.bufWritten = false → s0 = beginTrack 0 { s with cmds := q } →
    s0.track.ready = true → decode (fetch s0) = .ok (i, rest) →
    step s = andThen (exec i s0) fun s1 =>
      andThen (dispatchLoop (s0.track.avail - 1) s1) fun s2 =>
      andThen (eventStep s2) fun s3 =>
      andThen (processTracks [1, 2, 3] s3) fun s4 => .next (endTick s4)

/-- TICK while S.STATUS is not READY (42_tick_dispatcher.md R112): S.PLAYING <- 0, nothing else changes, nothing is
emitted, and it returns 0. That a step is one host command is log 1; the bit returned stands in the record of log 3.
Marked in the spec: R112 (decision D18). -/
def Obligations.TickWithoutSequenceDoesNothing : Prop :=
  ∀ (s : State) (q : List Command), s.cmds = .tick :: q → s.status ≠ .ready →
    step s = .next { s with playing := false, cmds := q, replies := s.replies ++ [.tick false] }

/-- TICK's result (R123), for the TICK as a whole: S.PLAYING and the bit returned are 1 iff the event step of at least one
track runs in it; and each track's PLAY bit after the TICK says whether its own event step ran. That the model
computes the result from the PLAY bits is log 15's; the bit returned stands in the record of log 3. -/
def Obligations.TickReportsPlayingTracks : Prop :=
  ∀ s s' : State, s.status = .ready → tick s = .next s' →
    (s'.playing = true ↔ ∃ i : Fin numTracks, EventStepRuns i s) ∧
    s'.replies = s.replies ++ [.tick s'.playing] ∧
    ∀ i : Fin numTracks, s'.tracks[i].play = true ↔ EventStepRuns i s

/-- The dispatch loop (42_tick_dispatcher.md R115, R119): with END - CUR instructions of fuel it stops only where the
track has entered an event, halted or exhausted its stream. Marked in the spec: R115 (decision D14); R119 (derived). -/
def Obligations.DispatchLoopDrains : Prop :=
  ∀ s s' : State, dispatchLoop s.track.avail s = .next s' →
    s'.track.etl ≠ 0 ∨ s'.track.halt = true ∨ s'.track.endOff.toNat ≤ s'.track.cur.toNat

/-- What no TICK writes (10_state.md R24, R54): the header fields CH, MODE and END, the block registers but S.PLAYING, the
ROM, the buffer; no cursor moves back, and no event emitted is taken back. Marked in the spec: R24, R54 (derived). -/
def Obligations.TickKeepsHeaderFields : Prop :=
  ∀ s s' : State, tick s = .next s' →
    (∀ i : Fin numTracks, s'.tracks[i].ch = s.tracks[i].ch ∧ s'.tracks[i].mode = s.tracks[i].mode ∧
      s'.tracks[i].endOff = s.tracks[i].endOff ∧ s.tracks[i].cur.toNat ≤ s'.tracks[i].cur.toNat) ∧
    s'.status = s.status ∧ s'.buflen = s.buflen ∧ s'.ntrk = s.ntrk ∧ s'.rom = s.rom ∧ s'.mem = s.mem ∧
    s'.bufWritten = s.bufWritten ∧ s'.cmds = s.cmds ∧ s.out <+: s'.out

/-- A halted track (R182): while S.STATUS is READY a TICK clears its PLAY bit (42_tick_dispatcher.md R114) and changes
nothing else of it; every other command but INIT and reset, and a TICK while S.STATUS is not READY, changes nothing of
it. So its FAULT is never overwritten. Marked in the spec: R114 (decision D25, D36); R182 (derived). -/
def Obligations.HaltedTrackNeverRunsAgain : Prop :=
  ∀ (s s' : State) (c : Command) (i : Fin numTracks), s.tracks[i].halt = true → runCommand c s = .next s' →
    (∀ len, c ≠ .init len) → c ≠ .reset →
    (c = .tick ∧ s.status = .ready → s'.tracks[i] = { s.tracks[i] with play := false }) ∧
    (c ≠ .tick ∨ s.status ≠ .ready → s'.tracks[i] = s.tracks[i])

/-- ARP_SPEED_ZERO in a TICK (R175): where a track's dispatch loop leaves it in an event with an arpeggio and ARPSPD = 0,
the arpeggio step of that TICK halts it with code 2, and its PLAY bit and the TICK's result stay set; the rest of the
track is as the dispatch loop left it (R174). The bit returned stands in the record of log 3. Marked in the spec: R174
(decision D25, D29, D32); R175 (decision D13, D31). -/
def Obligations.ArpSpeedZeroTickStillPlays : Prop :=
  ∀ (s s2 s' : State) (i : Fin numTracks), s.status = .ready → tick s = .next s' → LoopLeaves i s s2 →
    s2.track.halt = false → s2.track.etl ≠ 0 → s2.track.arpon = true → s2.track.arpspd = 0 →
    s'.tracks[i] = { s2.track with play := true, halt := true, fault := .arpSpeedZero, etl := 0 } ∧
    s'.playing = true ∧ s'.replies = s.replies ++ [.tick true]

/-- The events of one TICK (R127): all of track 0, then of track 1, 2, 3. Marked in the spec: R127 (derived). -/
def Obligations.TickEmitsInTrackOrder : Prop :=
  ∀ s s' : State, tick s = .next s' → ∃ e0 e1 e2 e3 : List ToneEvent,
    s'.out = s.out ++ e0 ++ e1 ++ e2 ++ e3 ∧ (∀ e ∈ e0, e.track = 0) ∧ (∀ e ∈ e1, e.track = 1) ∧
    (∀ e ∈ e2, e.track = 2) ∧ ∀ e ∈ e3, e.track = 3

/-- The bound on the work of a TICK (70_reset_and_hazards.md R202): a track emits at most END - CUR + 1 events, and the
whole TICK at most S.BUFLEN + 4. Marked in the spec: R202 (derived). -/
def Obligations.TickEmissionIsBounded : Prop :=
  (∀ (i : Fin numTracks) (s s' : State), processTrack i s = .next s' →
    s'.out.length ≤ s.out.length + (s.tracks[i].endOff.toNat - s.tracks[i].cur.toNat) + 1) ∧
  ∀ s s' : State, Inv s → StreamsInOrder s → tick s = .next s' →
    s'.out.length ≤ s.out.length + s.buflen.toNat + 4

/-- Tracks do not interact (10_state.md R21, 20_memory.md R66, 47_synthesis_bridge.md R163, 60_exceptions.md R178). Of two
states with the same context of track `i`, the same ROM, and the same buffer bytes from `lo` up to the track's END,
where `lo` is at most its CUR and, while an arpeggio is active, its ARPPTR: when the track's processing completes in
one, it completes in the other with the same context and the same events, whatever the other tracks' contexts and
faults, the block registers, the other bytes of the buffer and the events already emitted are. It leaves everything
outside that context alone: the other tracks, the block registers, the ROM, every byte of the buffer. The field `act`
is log 7's. Marked in the spec: R66 (derived). -/
def Obligations.TracksDoNotInteract : Prop :=
  ∀ (i : Fin numTracks) (s1 s2 s1' : State) (lo : Nat), s1.tracks[i].Inv s1.buflen → s2.tracks[i].Inv s2.buflen →
    s1.tracks[i] = s2.tracks[i] → s1.rom = s2.rom →
    lo ≤ s1.tracks[i].cur.toNat → (s1.tracks[i].arpon = true → lo ≤ s1.tracks[i].arpptr.toNat) →
    (∀ a, lo ≤ a → a < s1.tracks[i].endOff.toNat → s1.mem.read a = s2.mem.read a) →
    processTrack i s1 = .next s1' →
    ∃ (s2' : State) (evs : List ToneEvent), processTrack i s2 = .next s2' ∧ s2'.tracks[i] = s1'.tracks[i] ∧
      s1'.out = s1.out ++ evs ∧ s2'.out = s2.out ++ evs ∧
      SameElsewhere { s1 with act := i } s1' ∧ SameElsewhere { s2 with act := i } s2'

/-- The end of playback (42_tick_dispatcher.md R126): once a TICK returns 0 with S.STATUS = READY, every later TICK
without an INIT in between completes, returns 0 and emits nothing. The bits returned stand in the record of log 3.
Marked in the spec: R126 (derived). -/
def Obligations.EndOfPlaybackIsFinal : Prop :=
  ∀ s s' : State, s.status = .ready → tick s = .next s' → s'.playing = false → ∀ n : Nat,
    ∃ t, ticks n s' = .next t ∧ t.out = s'.out ∧ t.playing = false ∧
      t.replies = s'.replies ++ List.replicate n (.tick false)

/-- The timeline of an event without an arpeggio (42_tick_dispatcher.md R125): with ETL = n, each of the next n TICKs
completes, finds the track playing and leaves its cursor where it is, ETL going down to 0 and ELAP up by one a TICK.
Marked in the spec: R125 (derived). -/
def Obligations.EventLastsItsTicks : Prop :=
  ∀ (s : State) (i : Fin numTracks) (k : Nat), Inv s → HostKeepsDuties s → s.status = .ready →
    s.tracks[i].halt = false → s.tracks[i].arpon = false → k ≤ s.tracks[i].etl.toNat →
    ∃ t, ticks k s = .next t ∧ t.tracks[i].etl.toNat = s.tracks[i].etl.toNat - k ∧
      t.tracks[i].elap.toNat = s.tracks[i].elap.toNat + k ∧ t.tracks[i].cur = s.tracks[i].cur ∧
      (1 ≤ k → t.tracks[i].play = true ∧ t.playing = true)

/-- The retrigger schedule (45_arpeggio.md R156) of an arpeggio whose pitches all have a frequency. Between commands, with
ELAP = e, it makes its track play in each of the next ETL TICKs; in the first k of them the track emits exactly the
retriggers j with e <= j * ARPSPD < e + k, in order, the j-th a plain tone of length ARPSPD of pitch j mod LAST of the
list, and its cursor stays where it is. The same holds from the TICK whose dispatch loop starts the arpeggio (ELAP = 0
after the ARP, 45_arpeggio.md R152), the events of that loop coming first. Marked in the spec: R156 (derived). -/
def Obligations.ArpeggioFollowsItsSchedule : Prop :=
  (∀ (s : State) (i : Fin numTracks) (f : Nat → Half) (k : Nat), Inv s → HostKeepsDuties s → s.status = .ready →
    s.tracks[i].halt = false → s.tracks[i].arpon = true → s.tracks[i].arpspd ≠ 0 →
    (∀ j, j < s.tracks[i].last.toNat →
      ∃ p, s.mem.read (s.tracks[i].arpptr.toNat + j) = some p ∧ freq s.rom p = some (f j)) →
    k ≤ s.tracks[i].etl.toNat →
    ∃ t, ticks k s = .next t ∧ t.tracks[i].etl.toNat = s.tracks[i].etl.toNat - k ∧
      t.tracks[i].elap.toNat = s.tracks[i].elap.toNat + k ∧ t.tracks[i].cur = s.tracks[i].cur ∧
      (1 ≤ k → t.tracks[i].play = true ∧ t.playing = true) ∧
      t.out.filter (fun e => e.track == i) = s.out.filter (fun e => e.track == i) ++
        retriggers i f s.tracks[i] s.tracks[i].elap.toNat k) ∧
  ∀ (s s2 : State) (i : Fin numTracks) (f : Nat → Half) (k : Nat), Inv s → HostKeepsDuties s → s.status = .ready →
    LoopLeaves i s s2 → s2.track.halt = false → s2.track.arpon = true → s2.track.arpspd ≠ 0 →
    (∀ j, j < s2.track.last.toNat →
      ∃ p, s.mem.read (s2.track.arpptr.toNat + j) = some p ∧ freq s.rom p = some (f j)) →
    1 ≤ k → k ≤ s2.track.etl.toNat →
    ∃ t, ticks k s = .next t ∧ t.tracks[i].etl.toNat = s2.track.etl.toNat - k ∧
      t.tracks[i].elap.toNat = s2.track.elap.toNat + k ∧ t.tracks[i].cur = s2.track.cur ∧
      t.tracks[i].play = true ∧ t.playing = true ∧
      t.out.filter (fun e => e.track == i) = s2.out.filter (fun e => e.track == i) ++
        retriggers i f s2.track s2.track.elap.toNat k

/-- No stop while the host keeps its duties (20_memory.md R60, R63; 00_scope.md R14; 42_tick_dispatcher.md R119, R124;
70_reset_and_hazards.md R195, R196): every TICK answers a next state; no rule reads outside the buffer, and no track
fault ends the run. The stops it excludes are those of logs 4, 5 and 6. Marked in the spec: R119 (derived); R124
(decision D14, D15, D31); R195 (decision D1, D23); R196 (decision D23). -/
def Obligations.TickCompletesUnderTheHostsDuties : Prop :=
  ∀ s : State, Inv s → HostKeepsDuties s → ∃ s', tick s = .next s'

/-! ### INIT, reset and the host -/

/-- A step on the command INIT(len) accepts every well-formed song (41_init_parser.md R103 to R108): up to four tracks,
each header followed by its stream, with any flags byte; the bytes after the last stream are never read; each track's
context is as its header says, CH from flags bits 1..0 and MODE from bits 3..2 whatever bits 7..4 hold, and the others
are reset. That a step is one host command is log 1; the results stand in the record of log 3. Marked in the spec:
R103 (decision D17, D34); R104, R105 (decision D17); R106 (decision D21); R107 (decision D16); R108 (decision D35 and
derived). -/
def Obligations.InitAcceptsEverySong : Prop :=
  ∀ (s : State) (song : List (Byte × List Byte)) (len : Word) (q : List Command), s.cmds = .init len :: q →
    song.length ≤ 4 → (∀ t ∈ song, t.2.length ≤ 65534) → (songBytes song).length ≤ len.toNat →
    Placed s.mem (songBytes song) (songBytes song).length →
    ∃ s', step s = .next s' ∧ s'.status = .ready ∧ s'.ntrk.toNat = song.length ∧ s'.buflen = len ∧
      s'.playing = false ∧ s'.replies = s.replies ++ [.init true] ∧ s'.cmds = q ∧ s'.out = s.out ∧ s'.mem = s.mem ∧
      s'.rom = s.rom ∧
      (∀ (i : Fin numTracks) (flags : Byte) (stream : List Byte), song[i.val]? = some (flags, stream) →
        s'.tracks[i] = { Track.reset with
          ch := flags.extractLsb' 0 2, mode := flags.extractLsb' 2 2, cur := BitVec.ofNat 32 (streamStart song i)
          endOff := BitVec.ofNat 32 (streamStart song i + stream.length) }) ∧
      ∀ i : Fin numTracks, song.length ≤ i.val → s'.tracks[i] = Track.reset

/-- A step on INIT(len) of a song cut short (41_init_parser.md R102, R103, R109): with `len` below the song's length the
header is refused, and only bytes below `len` are needed for that: no read is out of bounds. That a step is one host
command is log 1. Marked in the spec: R102 (decision D17); R103 (decision D17, D34); R109 (decision D18). -/
def Obligations.InitRefusesASongCutShort : Prop :=
  ∀ (s : State) (song : List (Byte × List Byte)) (len : Word) (q : List Command), s.cmds = .init len :: q →
    song.length ≤ 4 → (∀ t ∈ song, t.2.length ≤ 65534) → len.toNat < (songBytes song).length →
    Placed s.mem (songBytes song) len.toNat →
    step s = .next (refuseInit (beginInit len { s with cmds := q }))

/-- A refused INIT (R109): when a step on INIT completes without accepting, every track is reset, S.NTRK = 0, S.STATUS =
MALFORMED and it returns 0. It refuses a `len` of 0, a track count above 4 (41_init_parser.md R102), and a stream size
of 0 in the header of any declared track, the headers before it being well formed, whatever follows (41_init_parser.md
R103; 60_exceptions.md R176). That a step is one host command is log 1; the results stand in the record of log 3.
Marked in the spec: R102 (decision D17); R103 (decision D17, D34); R109 (decision D18); R176 (decision D17, D18). -/
def Obligations.RefusedInitKeepsNoTrack : Prop :=
  (∀ (s s' : State) (len : Word) (q : List Command), s.cmds = .init len :: q → step s = .next s' → s'.status ≠ .ready →
    s'.status = .malformed ∧ s'.ntrk = 0 ∧ s'.playing = false ∧ s'.replies = s.replies ++ [.init false] ∧
    s'.out = s.out ∧ ∀ i : Fin numTracks, s'.tracks[i] = Track.reset) ∧
  (∀ (s : State) (len : Word) (q : List Command), s.cmds = .init len :: q →
    (len = 0 ∨ ∃ n : Byte, s.mem.read 0 = some n ∧ 4 < n.toNat) →
    step s = .next (refuseInit (beginInit len { s with cmds := q }))) ∧
  ∀ (s : State) (n : Byte) (before : List (Byte × List Byte)) (len : Word) (q : List Command),
    s.cmds = .init len :: q →
    before.length < n.toNat → n.toNat ≤ 4 → (∀ t ∈ before, t.2.length ≤ 65534) →
    (tracksBytes before).length + 3 ≤ len.toNat →
    Placed s.mem (n :: tracksBytes before ++ [0, 0]) ((tracksBytes before).length + 3) →
    step s = .next (refuseInit (beginInit len { s with cmds := q }))

/-- Reset (70_reset_and_hazards.md R190, 10_state.md R56): every track field, every block register and the output sequence
at the values the spec gives. That a step is one host command is log 1. Marked in the spec: R56, R190 (decision D19). -/
def Obligations.ResetGivesTheResetValues : Prop :=
  ∀ (s : State) (q : List Command), s.cmds = .reset :: q → ∃ s', step s = .next s' ∧
    s'.status = .uninit ∧ s'.buflen = 0 ∧ s'.ntrk = 0 ∧ s'.playing = false ∧ s'.out = [] ∧
    ∀ i : Fin numTracks, s'.tracks[i] =
      { cur := 0, endOff := 0, ch := 0, mode := 0, pan := 0, vol := 100, atk := 0, dec := 0, sus := 255, rel := 0,
        arpspd := 1, etl := 0, elap := 0, arpon := false, arpptr := 0, last := 0, segl := 0, segp := 0, halt := false,
        fault := .none, play := false }

/-- The status view (10_state.md R55): reading it changes no state of the block and returns STATUS, NTRK, PLAYING and each
track's HALT and FAULT. That a step is one host command is log 1; the view returned stands in the record of log 3.
Marked in the spec: R55 (decision D25). -/
def Obligations.StatusReadReturnsTheView : Prop :=
  ∀ (s : State) (q : List Command), s.cmds = .readStatus :: q → ∃ v : StatusView,
    step s = .next { s with cmds := q, replies := s.replies ++ [.status v] } ∧
    v.status = s.status ∧ v.ntrk = s.ntrk ∧ v.playing = s.playing ∧
    ∀ i : Fin numTracks, v.halt[i] = s.tracks[i].halt ∧ v.fault[i] = s.tracks[i].fault

/-- The block never writes the buffer (R61): no command of the host but its own placing of a byte, which is no command to
the block, changes any byte of it, and neither does any instruction. -/
def Obligations.BlockNeverWritesTheBuffer : Prop :=
  (∀ (s s' : State) (c : Command), (∀ a b, c ≠ .place a b) → runCommand c s = .next s' →
    ∀ x, s'.mem.read x = s.mem.read x) ∧
  ∀ (i : Instr) (s s' : State), exec i s = .next s' → ∀ x, s'.mem.read x = s.mem.read x

/-- What emits (R164, 42_tick_dispatcher.md R112): no command but TICK emits; of the instructions only a NOTE, and it
exactly one event unless it takes a fault; an arpeggio step at most one. Marked in the spec: R112 (decision D18); R164
(derived). -/
def Obligations.OnlyNotesAndRetriggersEmit : Prop :=
  (∀ (s s' : State) (c : Command), c ≠ .tick → c ≠ .reset → runCommand c s = .next s' → s'.out = s.out) ∧
  (∀ (i : Instr) (s s' : State), (∀ p l, i ≠ .note p l) → exec i s = .next s' → s'.out = s.out) ∧
  (∀ (p : Byte) (l : LenField) (s : State), (∃ c, TakesFault (exec (.note p l) s) s c) ∨
    ∃ s' e, exec (.note p l) s = .next s' ∧ s'.out = s.out ++ [e]) ∧
  ∀ s s' : State, arpStep s = .next s' → s'.out = s.out ∨ ∃ e, s'.out = s.out ++ [e]

/-- The model's own stop for a broken host duty (log 5; 70_reset_and_hazards.md R196 gives no meaning to a command after
it): the host writes a byte below BUFLEN while S.STATUS is READY; the next TICK stops by name. Marked in the spec:
R196 (decision D23). -/
def Obligations.TickAfterBufferWriteStops : Prop :=
  ∀ (s : State) (a : Word) (b : Byte) (q : List Command), s.cmds = .place a b :: .tick :: q → s.status = .ready →
    a.toNat < s.buflen.toNat → ∃ s', step s = .next s' ∧ step s' = .fault .bufferChanged

/-! ### Invariants -/

/-- The invariant holds at reset, and the streams are apart there. What the invariant says of the model's own choices is
named at EveryStepKeepsTheInvariant (logs 4, 7, 9, 13, 15). -/
def Obligations.ResetMeetsTheInvariant : Prop := Inv State.reset ∧ StreamsApart State.reset

/-- Every step keeps the invariant: cursors within END within BUFLEN (10_state.md R24), PAN never 3 (R30), counters of one
event at most the longest wait (R37, R38), note lists inside the stream (R40), HALT and FAULT together (R45), at most
four tracks in use and none unless READY (R51), the table in the ROM (R52), unused contexts reset (41_init_parser.md
R107). Parts of it are the model's: the buffer's canonical form (log 4), `act` = 0 between commands (log 7), the ROM
as state (log 13), S.PLAYING equal to the PLAY bits together (log 15), and the bound 32831 on ETL + ELAP, which lets
ELAP reach 32831 where the table of 10_state.md section 2 says 32830 (log 9). Marked in the spec: R24, R37 (derived);
R30 (decision D21); R38 (decision D12); R45 (decision D25); R51 (decision D19); R52 (decision D4 and derived); R107
(decision D16). -/
def Obligations.EveryStepKeepsTheInvariant : Prop :=
  ∀ s s' : State, Inv s → step s = .next s' → Inv s'

/-- The streams stay disjoint and in track order through every step (20_memory.md R66): each track's cursor stays at or
after the end of every earlier track's stream, and so does the note list of a running arpeggio, so no track ever reads
another's stream. Marked in the spec: R66 (derived). -/
def Obligations.StreamsStayInOrder : Prop :=
  (∀ s s' : State, Inv s → StreamsInOrder s → step s = .next s' → StreamsInOrder s') ∧
  ∀ s s' : State, Inv s → StreamsApart s → step s = .next s' → StreamsApart s'

/-! ### The host -/

/-- The model's choice (log 18; the spec leaves the placing of the buffer to the host, 70_reset_and_hazards.md R193): a
step on the host's placing of a byte changes that byte of the buffer and no other, and leaves every track context, the
block registers, the ROM and the output alone (10_state.md R54: the host writes no state field but through INIT and
reset). Whether a parsed byte was written is kept for log 5. That a step is one host command is log 1. Marked in the
spec: R54 (derived); R193 (decision D20). -/
def Obligations.PlacingWritesOneByte : Prop :=
  ∀ (s : State) (a : Word) (b : Byte) (q : List Command), s.cmds = .place a b :: q → ∃ s', step s = .next s' ∧
    (∀ x, s'.mem.read x = if x = a.toNat then some b else s.mem.read x) ∧ s'.tracks = s.tracks ∧
    s'.status = s.status ∧ s'.buflen = s.buflen ∧ s'.ntrk = s.ntrk ∧ s'.playing = s.playing ∧ s'.rom = s.rom ∧
    s'.out = s.out ∧ s'.act = s.act ∧ s'.replies = s.replies ∧ s'.cmds = q ∧
    (s'.bufWritten = true ↔ s.bufWritten = true ∨ (s.status = .ready ∧ a.toNat < s.buflen.toNat))
end

