-- ==== Sys2Proof/Laws/Decode.lean ====
section
/-! SUPPORT. The small lemmas of the decoder and the encoder: the length field in numbers, classification under a legal
layout, and what a layout's constraints say. -/
namespace Sys2Proof
open Machine

/-- The number of two bit strings one after the other. -/
theorem toNat_append_add {m n : Nat} (x : BitVec m) (y : BitVec n) :
    (x ++ y).toNat = x.toNat * 2 ^ n + y.toNat := by
  rw [BitVec.toNat_append, Nat.shiftLeft_eq, Nat.mul_comm, Nat.two_pow_add_eq_or_of_lt y.isLt]

/-- The byte of a V1 field (30_encoding.md R78). -/
theorem shortField_toNat (v : BitVec 7) : BitVec.toNat (w := 8) (0#1 ++ v) = v.toNat := by
  have := toNat_append_add 0#1 v
  simpa using this
/-- The first byte of a V2 field (30_encoding.md R78). -/
theorem longFieldHigh_toNat (v : BitVec 15) : BitVec.toNat (w := 8) (1#1 ++ v.extractLsb' 8 7) = 128 + v.toNat / 256 := by
  have := toNat_append_add 1#1 (v.extractLsb' 8 7)
  have h := v.isLt
  simp only [BitVec.toNat_ofNat, BitVec.extractLsb'_toNat, Nat.shiftRight_eq_div_pow] at this
  exact this.trans (by omega)
/-- The value of a V2 field (30_encoding.md R78). -/
theorem longFieldValue_toNat (hi : BitVec 7) (lo : Byte) : BitVec.toNat (w := 15) (hi ++ lo) = hi.toNat * 256 + lo.toNat :=
  toNat_append_add hi lo

/-- A length field reads back from its bytes. -/
theorem decodeLen_encodeLen (op : Byte) (l : LenField) (rest : List Byte) :
    decodeLen op (encodeLen l ++ rest) = .ok (l, rest) := by
  cases l with
  | v1 v =>
    have e := shortField_toNat v
    have hv := v.isLt
    have h : BitVec.msb (n := 8) (0#1 ++ v) = false := by
      rw [BitVec.msb_eq_decide, e]; simpa using hv
    have h2 : BitVec.setWidth (w := 8) 7 (0#1 ++ v) = v := by
      apply BitVec.eq_of_toNat_eq; rw [BitVec.toNat_setWidth, e]; omega
    simp only [encodeLen, List.cons_append, List.nil_append, decodeLen]
    rw [h, h2]; rfl
  | v2 v =>
    have e := longFieldHigh_toNat v
    have hv := v.isLt
    have h : BitVec.msb (n := 8) (1#1 ++ v.extractLsb' 8 7) = true := by
      rw [BitVec.msb_eq_decide, e]; simp
    have h2 : HAppend.hAppend (γ := BitVec 15) (BitVec.setWidth (w := 8) 7 (1#1 ++ v.extractLsb' 8 7)) (v.setWidth 8) = v := by
      apply BitVec.eq_of_toNat_eq
      rw [longFieldValue_toNat, BitVec.toNat_setWidth, e, BitVec.toNat_setWidth]; omega
    simp only [encodeLen, List.cons_append, List.nil_append, decodeLen]
    rw [if_pos h, h2]

/-- What `decodeLen` answers, when it answers a field. -/
theorem encodeLen_decodeLen {op : Byte} {bytes rest : List Byte} {l : LenField} (h : decodeLen op bytes = .ok (l, rest)) :
    bytes = encodeLen l ++ rest ∧ bytes.length = l.size + rest.length := by
  unfold decodeLen at h
  split at h
  · cases h
  · next v0 r =>
    have h0 := v0.isLt
    split at h
    · next hm =>
      rw [BitVec.msb_eq_decide, decide_eq_true_eq] at hm
      split at h
      · cases h
      · next v1 r' =>
        cases h
        refine ⟨?_, by simp [LenField.size]; omega⟩
        have h1 := v1.isLt
        have e := longFieldValue_toNat (v0.setWidth 7) v1
        rw [BitVec.toNat_setWidth] at e
        simp only [encodeLen, List.cons_append, List.nil_append, List.cons.injEq, and_true]
        constructor
        · apply BitVec.eq_of_toNat_eq
          rw [longFieldHigh_toNat, e]; omega
        · apply BitVec.eq_of_toNat_eq
          rw [BitVec.toNat_setWidth, e]; omega
    · next hm =>
      rw [BitVec.msb_eq_decide, decide_eq_true_eq] at hm
      cases h
      refine ⟨?_, by simp [LenField.size]; omega⟩
      simp only [encodeLen, List.cons_append, List.nil_append, List.cons.injEq, and_true]
      apply BitVec.eq_of_toNat_eq
      rw [shortField_toNat, BitVec.toNat_setWidth]; omega

/-- The constraints of a legal layout, as bounds on its bases (30_encoding.md R84). -/
theorem legal_bounds {lay : Layout} (h : lay.legal = true) :
    1 ≤ lay.segSpan ∧ 1 ≤ lay.noteSpan ∧ lay.setarpspd ≤ 255 ∧ lay.setpan + 3 ≤ lay.setarpspd ∧
    lay.setrel + 1 ≤ lay.setpan ∧ lay.setsus + 1 ≤ lay.setrel ∧ lay.setdec + 1 ≤ lay.setsus ∧
    lay.setatk + 1 ≤ lay.setdec ∧ lay.setvol + 1 ≤ lay.setatk ∧ lay.arp + 24 ≤ lay.setvol ∧
    lay.seg + lay.segSpan ≤ lay.arp ∧ lay.note + lay.noteSpan ≤ lay.seg ∧ lay.swait + 63 ≤ lay.note ∧
    lay.lwait + 1 ≤ lay.swait := by
  simp only [Layout.legal, Layout.below, Bool.and_eq_true, decide_eq_true_eq, and_assoc] at h
  exact h

/-- The ranges of a legal layout are disjoint, so the order of checks does not matter (30_encoding.md R83, R84). -/
theorem classify_eq_some {lay : Layout} (h : lay.legal = true) (op : Byte) (c : Category) :
    classify lay op = some c ↔ lay.base c ≤ op.toNat ∧ op.toNat < lay.base c + lay.span c := by
  have b := legal_bounds h
  constructor
  · intro hc
    simpa [Layout.owns] using List.find?_some hc
  · intro hc
    have uniq : ∀ d, lay.owns op.toNat d = true → d = c := by
      intro d hd
      simp only [Layout.owns, Bool.and_eq_true, decide_eq_true_eq] at hd
      obtain ⟨b1, b2, b3, b4, b5, b6, b7, b8, b9, b10, b11, b12, b13, b14⟩ := b
      cases c <;> cases d <;> first | rfl | (simp only [Layout.base, Layout.span] at hc hd; omega)
    have hex : (classify lay op).isSome = true := by
      rw [classify, List.find?_isSome]
      exact ⟨c, by cases c <;> simp [topDown], by simp [Layout.owns, hc]⟩
    obtain ⟨d, hd⟩ := Option.isSome_iff_exists.1 hex
    rw [hd, uniq d (List.find?_some hd)]

/-- The opcode byte of category `c` at offset `off`. -/
theorem opcodeByte_toNat {lay : Layout} (h : lay.legal = true) (c : Category) {off : Nat} (ho : off < lay.span c) :
    (opcodeByte lay c off).toNat = lay.base c + off := by
  obtain ⟨b1, b2, b3, b4, b5, b6, b7, b8, b9, b10, b11, b12, b13, b14⟩ := legal_bounds h
  simp only [opcodeByte, BitVec.toNat_ofNat]
  apply Nat.mod_eq_of_lt
  cases c <;> simp only [Layout.base, Layout.span] at ho ⊢ <;> omega

/-- Decoding starts with the operands of the opcode's category. -/
theorem decodeIn_opcode {lay : Layout} (h : lay.legal = true) (c : Category) {off : Nat} (ho : off < lay.span c)
    (bytes : List Byte) :
    decodeIn lay (opcodeByte lay c off :: bytes) = decodeOperands c (opcodeByte lay c off) off bytes := by
  have e := opcodeByte_toNat h c ho
  have : classify lay (opcodeByte lay c off) = some c := (classify_eq_some h _ _).2 (by omega)
  simp only [decodeIn, this, e, Nat.add_sub_cancel_left]

/-- An opcode is the byte of its category at its offset. -/
theorem opcodeByte_sub {lay : Layout} {op : Byte} {c : Category} (h : lay.base c ≤ op.toNat) :
    opcodeByte lay c (op.toNat - lay.base c) = op := by
  simp [opcodeByte, Nat.add_sub_cancel' h]

/-- W4ON-L1 meets the constraints of a layout (30_encoding.md R85). -/
theorem w4onL1_legal : w4onL1.legal = true := by decide

@[simp] theorem encodeLen_length (l : LenField) : (encodeLen l).length = l.size := by cases l <;> rfl

theorem lenField_size_pos (l : LenField) : 1 ≤ l.size ∧ l.size ≤ 2 := by cases l <;> simp [LenField.size]

theorem lenField_value_lt (l : LenField) : l.value.toNat < 2 ^ 15 := by
  cases l <;> simp [LenField.value] <;> omega

theorem instr_size_pos (i : Instr) : 1 ≤ i.size := by
  (cases i <;> simp [Instr.size]); omega

end Sys2Proof
end

