-- ==== Sys2Proof/Laws/Memory.lean ====
section
/-! SUPPORT. The laws of the buffer: a read after a write, and that every operation keeps the canonical form. -/
namespace Sys2Proof.Machine

@[simp] theorem Memory.read_nil (a : Nat) : Memory.read [] a = none := rfl

theorem Memory.read_cons (k : Nat) (b : Byte) (m : Memory) (a : Nat) :
    Memory.read ((k, b) :: m) a = if a = k then some b else Memory.read m a := rfl

/-- A read after a write gives the byte written there and leaves every other offset alone. -/
theorem Memory.read_write (m : Memory) (a : Nat) (b : Byte) (x : Nat) :
    (m.write a b).read x = if x = a then some b else m.read x := by
  induction m with
  | nil => rfl
  | cons hd tl ih =>
    obtain ⟨k, c⟩ := hd
    unfold Memory.write
    split
    · rfl
    · split
      · next h => subst h; by_cases hx : x = a <;> simp [Memory.read_cons, hx]
      · next h =>
        simp only [Memory.read_cons, ih]
        by_cases hx : x = k
        · have hka : k ≠ a := fun e => h e.symm
          simp [hx, hka]
        · simp [hx]

/-- The offsets of a written buffer are the old ones and the one written. -/
theorem Memory.mem_write {m : Memory} {a : Nat} {b : Byte} {c : Host.Cell} (h : c ∈ m.write a b) :
    c = (a, b) ∨ c ∈ m := by
  induction m with
  | nil => simpa [Memory.write] using h
  | cons hd tl ih =>
    obtain ⟨k, d⟩ := hd
    unfold Memory.write at h
    split at h
    · simpa using h
    · split at h
      · rcases List.mem_cons.1 h with h | h
        · exact .inl h
        · exact .inr (List.mem_cons_of_mem _ h)
      · rcases List.mem_cons.1 h with h | h
        · exact .inr (h ▸ List.mem_cons_self ..)
        · exact (ih h).imp id (List.mem_cons_of_mem _)

/-- A write of a 32-bit offset keeps the canonical form. -/
theorem Memory.wf_write {m : Memory} (h : m.wf) {a : Nat} (ha : a < 2 ^ 32) (b : Byte) : (m.write a b).wf := by
  induction m with
  | nil => exact ⟨List.pairwise_singleton .., fun c hc => by simp only [Memory.write, List.mem_singleton] at hc; exact hc ▸ ha⟩
  | cons hd tl ih =>
    obtain ⟨k, c⟩ := hd
    obtain ⟨hp, hb⟩ := h
    have hk := hb (k, c) (List.mem_cons_self ..)
    obtain ⟨hlt, hp'⟩ := List.pairwise_cons.1 hp
    have hb' : ∀ c ∈ tl, c.1 < 2 ^ 32 := fun c hc => hb c (List.mem_cons_of_mem _ hc)
    unfold Memory.write
    split
    · next h =>
      refine ⟨List.pairwise_cons.2 ⟨?_, hp⟩, ?_⟩
      · intro x hx
        rcases List.mem_cons.1 hx with rfl | hx
        · exact h
        · exact Nat.lt_trans h (hlt x hx)
      · intro x hx
        rcases List.mem_cons.1 hx with rfl | hx
        · exact ha
        · exact hb x hx
    · split
      · next h =>
        subst h
        refine ⟨List.pairwise_cons.2 ⟨hlt, hp'⟩, ?_⟩
        intro x hx
        rcases List.mem_cons.1 hx with rfl | hx
        · exact ha
        · exact hb' x hx
      · next h1 h2 =>
        have hw := ih ⟨hp', hb'⟩
        refine ⟨List.pairwise_cons.2 ⟨?_, hw.1⟩, ?_⟩
        · intro x hx
          rcases Memory.mem_write hx with rfl | hx
          · show k < a; omega
          · exact hlt x hx
        · intro x hx
          rcases List.mem_cons.1 hx with rfl | hx
          · exact hk
          · exact hw.2 x hx

/-- Placing bytes inside the address space keeps the canonical form. -/
theorem Memory.wf_writeAll (bs : List Byte) {m : Memory} (h : m.wf) {a : Nat} (ha : a + bs.length ≤ 2 ^ 32) :
    (m.writeAll a bs).wf := by
  induction bs generalizing m a with
  | nil => exact h
  | cons b bs ih =>
    simp only [List.length_cons] at ha
    exact ih (Memory.wf_write h (by omega) b) (by omega)

/-- The reset buffer has the canonical form. -/
theorem reset_mem_wf : State.reset.mem.wf := ⟨List.Pairwise.nil, by simp [State.reset]⟩

/-- A byte placed by the host keeps the canonical form. -/
theorem placeByte_mem_wf {s : State} (h : s.mem.wf) (a : Word) (b : Byte) : (placeByte a b s).mem.wf :=
  Memory.wf_write h a.isLt b

/-- What MemRead answers: the byte placed there, below BUFLEN. -/
theorem memRead_ok {s : State} {a : Nat} {b : Byte} :
    memRead s a = .ok b ↔ a < s.buflen.toNat ∧ s.mem.read a = some b := by
  unfold memRead
  split
  · next h => cases hr : s.mem.read a <;> simp [h]
  · next h => simp [h]

/-- MemRead depends on the buffer and its length only. -/
theorem memRead_congr {s s' : State} (hm : s'.mem = s.mem) (hb : s'.buflen = s.buflen) (a : Nat) :
    memRead s' a = memRead s a := by simp only [memRead, hm, hb]

/-- The bytes read depend on the buffer and its length only. -/
theorem readBytes_congr {s s' : State} (hm : s'.mem = s.mem) (hb : s'.buflen = s.buflen) (a n : Nat) :
    readBytes s' a n = readBytes s a n := by
  induction n generalizing a with
  | zero => rfl
  | succ n ih => simp only [readBytes, memRead_congr hm hb, ih]

/-- At most the number of bytes asked for is read. -/
theorem readBytes_length_le (s : State) (a n : Nat) : (readBytes s a n).length ≤ n := by
  induction n generalizing a with
  | zero => simp [readBytes]
  | succ n ih =>
    simp only [readBytes]
    split
    · simpa using ih (a + 1)
    · simp

/-- When every byte is there, all of them are read. -/
theorem readBytes_full {s : State} {a n : Nat} (h : ∀ x, a ≤ x → x < a + n → ∃ b, memRead s x = .ok b) :
    (readBytes s a n).length = n := by
  induction n generalizing a with
  | zero => rfl
  | succ n ih =>
    obtain ⟨b, hb⟩ := h a (Nat.le_refl a) (by omega)
    simp only [readBytes, hb, List.length_cons]
    rw [ih fun x h1 h2 => h x (by omega) (by omega)]

end Sys2Proof.Machine
end

