-- ==== Sys2Proof/Laws/State.lean ====
section
/-! SUPPORT. The small lemmas of the state's updates: one per field per update, true by rfl, and the laws of reading and
writing track contexts. -/
namespace Sys2Proof.Machine

section setTrack
variable (s : State) (t u : Track)

@[simp] theorem setTrack_status : (s.setTrack t).status = s.status := rfl
@[simp] theorem setTrack_buflen : (s.setTrack t).buflen = s.buflen := rfl
@[simp] theorem setTrack_ntrk : (s.setTrack t).ntrk = s.ntrk := rfl
@[simp] theorem setTrack_playing : (s.setTrack t).playing = s.playing := rfl
@[simp] theorem setTrack_rom : (s.setTrack t).rom = s.rom := rfl
@[simp] theorem setTrack_out : (s.setTrack t).out = s.out := rfl
@[simp] theorem setTrack_mem : (s.setTrack t).mem = s.mem := rfl
@[simp] theorem setTrack_act : (s.setTrack t).act = s.act := rfl
@[simp] theorem setTrack_bufWritten : (s.setTrack t).bufWritten = s.bufWritten := rfl
@[simp] theorem setTrack_cmds : (s.setTrack t).cmds = s.cmds := rfl
@[simp] theorem setTrack_replies : (s.setTrack t).replies = s.replies := rfl

/-- The context written is the one read back. -/
@[simp] theorem setTrack_track : (s.setTrack t).track = t := by
  simp [State.setTrack, State.track]

/-- Another track's context is not touched. -/
theorem setTrack_other (j : Fin numTracks) (h : j ≠ s.act) : (s.setTrack t).tracks[j] = s.tracks[j] := by
  have : s.act.val ≠ j.val := fun e => h (Fin.ext e.symm)
  simp [State.setTrack, this]

/-- The context of the track being processed, by its index. -/
theorem setTrack_at_act : (s.setTrack t).tracks[s.act] = t := setTrack_track s t

@[simp] theorem setTrack_setTrack : (s.setTrack t).setTrack u = s.setTrack u := by
  simp [State.setTrack]

/-- Writing back the context read changes nothing. -/
@[simp] theorem setTrack_self : s.setTrack s.track = s := by
  cases s; simp [State.setTrack, State.track]

end setTrack

section emit
variable (s : State) (f d v fl : Word)

@[simp] theorem emit_status : (s.emit f d v fl).status = s.status := rfl
@[simp] theorem emit_buflen : (s.emit f d v fl).buflen = s.buflen := rfl
@[simp] theorem emit_ntrk : (s.emit f d v fl).ntrk = s.ntrk := rfl
@[simp] theorem emit_playing : (s.emit f d v fl).playing = s.playing := rfl
@[simp] theorem emit_tracks : (s.emit f d v fl).tracks = s.tracks := rfl
@[simp] theorem emit_rom : (s.emit f d v fl).rom = s.rom := rfl
@[simp] theorem emit_out : (s.emit f d v fl).out = s.out ++ [⟨s.act, f, d, v, fl⟩] := rfl
@[simp] theorem emit_mem : (s.emit f d v fl).mem = s.mem := rfl
@[simp] theorem emit_act : (s.emit f d v fl).act = s.act := rfl
@[simp] theorem emit_bufWritten : (s.emit f d v fl).bufWritten = s.bufWritten := rfl
@[simp] theorem emit_cmds : (s.emit f d v fl).cmds = s.cmds := rfl
@[simp] theorem emit_replies : (s.emit f d v fl).replies = s.replies := rfl
@[simp] theorem emit_track : (s.emit f d v fl).track = s.track := rfl

end emit

section beginTrack
variable (i : Fin numTracks) (s : State)

@[simp] theorem beginTrack_status : (beginTrack i s).status = s.status := rfl
@[simp] theorem beginTrack_buflen : (beginTrack i s).buflen = s.buflen := rfl
@[simp] theorem beginTrack_ntrk : (beginTrack i s).ntrk = s.ntrk := rfl
@[simp] theorem beginTrack_playing : (beginTrack i s).playing = s.playing := rfl
@[simp] theorem beginTrack_rom : (beginTrack i s).rom = s.rom := rfl
@[simp] theorem beginTrack_out : (beginTrack i s).out = s.out := rfl
@[simp] theorem beginTrack_mem : (beginTrack i s).mem = s.mem := rfl
@[simp] theorem beginTrack_act : (beginTrack i s).act = i := rfl
@[simp] theorem beginTrack_bufWritten : (beginTrack i s).bufWritten = s.bufWritten := rfl
@[simp] theorem beginTrack_cmds : (beginTrack i s).cmds = s.cmds := rfl
@[simp] theorem beginTrack_replies : (beginTrack i s).replies = s.replies := rfl

/-- Only PLAY of the track's context changes. -/
@[simp] theorem beginTrack_track : (beginTrack i s).track = { s.tracks[i] with play := false } := by
  simp [beginTrack, State.track]

theorem beginTrack_other (j : Fin numTracks) (h : j ≠ i) : (beginTrack i s).tracks[j] = s.tracks[j] := by
  have : i.val ≠ j.val := fun e => h (Fin.ext e.symm)
  simp [beginTrack, this]

end beginTrack

/-- Two states are equal when all their fields are. -/
theorem State.eq_of_fields {s s' : State} (h1 : s.status = s'.status) (h2 : s.buflen = s'.buflen)
    (h3 : s.ntrk = s'.ntrk) (h4 : s.playing = s'.playing) (h5 : s.tracks = s'.tracks) (h6 : s.rom = s'.rom)
    (h7 : s.out = s'.out) (h8 : s.mem = s'.mem) (h9 : s.act = s'.act) (h10 : s.bufWritten = s'.bufWritten)
    (h11 : s.cmds = s'.cmds) (h12 : s.replies = s'.replies) : s = s' := by
  cases s; cases s'; simp_all

end Sys2Proof.Machine
end

