-- ==== Sys2Proof/Laws/Ops.lean ====
section
/-! SUPPORT. One lemma per shared operation that says once all it can do, in the terms of Sys2Proof/Safety.lean. -/
namespace Sys2Proof.Machine

theorem SameElsewhere.refl (s : State) : SameElsewhere s s :=
  ⟨rfl, rfl, rfl, rfl, fun _ _ => rfl, rfl, fun _ => rfl, rfl, rfl, rfl, rfl⟩

theorem SameElsewhere.trans {s1 s2 s3 : State} (h : SameElsewhere s1 s2) (g : SameElsewhere s2 s3) :
    SameElsewhere s1 s3 where
  status := g.status.trans h.status
  buflen := g.buflen.trans h.buflen
  ntrk := g.ntrk.trans h.ntrk
  playing := g.playing.trans h.playing
  others j hj := (g.others j (h.act ▸ hj)).trans (h.others j hj)
  rom := g.rom.trans h.rom
  mem a := (g.mem a).trans (h.mem a)
  act := g.act.trans h.act
  bufWritten := g.bufWritten.trans h.bufWritten
  cmds := g.cmds.trans h.cmds
  replies := g.replies.trans h.replies

/-- Writing the context of the track being processed touches nothing else. -/
theorem setTrack_same (s : State) (t : Track) : SameElsewhere s (s.setTrack t) :=
  ⟨rfl, rfl, rfl, rfl, fun j hj => setTrack_other s t j hj, rfl, fun _ => rfl, rfl, rfl, rfl, rfl⟩

/-- Emitting touches nothing but the output sequence. -/
theorem emit_same (s : State) (f d v fl : Word) : SameElsewhere s (s.emit f d v fl) :=
  ⟨rfl, rfl, rfl, rfl, fun _ _ => rfl, rfl, fun _ => rfl, rfl, rfl, rfl, rfl⟩

/-- All a write of the context does. -/
theorem resultIs_setTrack (s : State) (t : Track) : ResultIs (.next (s.setTrack t)) s t [] :=
  ⟨_, rfl, setTrack_track s t, by simp, setTrack_same s t⟩

/-- All that an emission followed by a write of the context does. -/
theorem resultIs_emit_setTrack (s : State) (f d v fl : Word) (t : Track) :
    ResultIs (.next ((s.emit f d v fl).setTrack t)) s t [⟨s.act, f, d, v, fl⟩] :=
  ⟨_, rfl, setTrack_track _ t, rfl, (emit_same s f d v fl).trans (setTrack_same _ t)⟩

@[simp] theorem raiseFault_track (c : TrackFault) (s : State) :
    (raiseFault c s).track = { s.track with halt := true, fault := c, etl := 0 } := setTrack_track ..

@[simp] theorem raiseFault_out (c : TrackFault) (s : State) : (raiseFault c s).out = s.out := rfl

theorem raiseFault_same (c : TrackFault) (s : State) : SameElsewhere s (raiseFault c s) := setTrack_same ..

/-- With its bytes before END, an instruction has its effect. -/
theorem withBytes_of_le {n : Nat} {f : State → State} {s : State} (h : n ≤ s.track.avail) :
    withBytes n f s = .next (f s) := if_pos h

/-- Without them, it takes TRUNCATED_STREAM. -/
theorem withBytes_of_lt {n : Nat} {f : State → State} {s : State} (h : s.track.avail < n) :
    withBytes n f s = .next (raiseFault .truncatedStream s) := if_neg (Nat.not_le.2 h)

@[simp] theorem andThen_next (s : State) (k : State → Host.Outcome State Fault Refusal) :
    andThen (.next s) k = k s := rfl

/-- Two operations in a row answer a next state exactly when both do. -/
theorem andThen_eq_next {o : Host.Outcome State Fault Refusal} {k : State → Host.Outcome State Fault Refusal}
    {s' : State} : andThen o k = .next s' ↔ ∃ s, o = .next s ∧ k s = .next s' := by
  cases o <;> simp [andThen]

/-- All that emitting a plain tone does. -/
theorem emitPlain_eq (f : Half) (len guard : Nat) (s : State) :
    emitPlain f len guard s = s.emit (f.setWidth 32)
      (packDur durPack ((envelope len s.track.atk.toNat s.track.dec.toNat).sustain + guard) s.track.rel
        (BitVec.ofNat 8 (envelope len s.track.atk.toNat s.track.dec.toNat).decay)
        (BitVec.ofNat 8 (envelope len s.track.atk.toNat s.track.dec.toNat).attack))
      (volWord s.track) (flagsWord s.track) := rfl

/-- The lookup answers exactly for note indices below 132. -/
theorem freq_isSome (rom : Vector Half 12) (n : Byte) : (freq rom n).isSome = decide (n.toNat < 132) := by
  unfold freq; split <;> simp [*]

theorem freq_eq_none {rom : Vector Half 12} {n : Byte} : freq rom n = none ↔ 132 ≤ n.toNat := by
  unfold freq; split <;> simp <;> omega

end Sys2Proof.Machine
end

