-- ==== Sys2Proof/Laws/Exec.lean ====
section
/-! SUPPORT. What one instruction can do, said once: it always answers a next state, it stays within its track, and it either
takes the fault action or advances CUR by its size. -/
namespace Sys2Proof.Machine

/-- A step that stays within the track being processed: its header fields and PLAY bit are kept, at most one event is
emitted, with its index, and everything else is unchanged. -/
structure Local (s s' : State) : Prop where
  same : SameElsewhere s s'
  mem : s'.mem = s.mem
  ch : s'.track.ch = s.track.ch
  mode : s'.track.mode = s.track.mode
  endOff : s'.track.endOff = s.track.endOff
  play : s'.track.play = s.track.play
  out : ∃ evs, s'.out = s.out ++ evs ∧ evs.length ≤ 1 ∧ ∀ e ∈ evs, e.track = s.act

theorem Local.setTrack {s : State} {t : Track} (h1 : t.ch = s.track.ch) (h2 : t.mode = s.track.mode)
    (h3 : t.endOff = s.track.endOff) (h4 : t.play = s.track.play) : Local s (s.setTrack t) where
  same := setTrack_same ..
  mem := rfl
  ch := by simpa using h1
  mode := by simpa using h2
  endOff := by simpa using h3
  play := by simpa using h4
  out := ⟨[], by simp, by simp, by simp⟩

theorem Local.emit_setTrack {s : State} {f d v fl : Word} {t : Track} (h1 : t.ch = s.track.ch)
    (h2 : t.mode = s.track.mode) (h3 : t.endOff = s.track.endOff) (h4 : t.play = s.track.play) :
    Local s ((s.emit f d v fl).setTrack t) where
  same := (emit_same s f d v fl).trans (setTrack_same ..)
  mem := rfl
  ch := by simpa using h1
  mode := by simpa using h2
  endOff := by simpa using h3
  play := by simpa using h4
  out := ⟨_, rfl, by simp, by simp⟩

theorem raiseFault_local (c : TrackFault) (s : State) : Local s (raiseFault c s) := Local.setTrack rfl rfl rfl rfl

/-- What a completed instruction does to the cursor and the fault fields. -/
def Advanced (n : Nat) (s s' : State) : Prop :=
  s'.track.halt = s.track.halt ∧ s'.track.fault = s.track.fault ∧ s'.track.cur = s.track.advanced n

/-- Everything an instruction's effect can be. -/
def Effect (n : Nat) (s s' : State) : Prop := Local s s' ∧ ((∃ c, c ≠ .none ∧ s' = raiseFault c s) ∨ Advanced n s s')

theorem noteEffect_effect (pitch : Byte) (l : LenField) (s : State) :
    Effect (1 + l.size) s (noteEffect pitch l s) := by
  have hbad : Effect (1 + l.size) s (raiseFault .badPitch s) :=
    ⟨raiseFault_local .., .inl ⟨_, by simp, rfl⟩⟩
  unfold noteEffect plainNote slideNote
  split
  · split
    · split
      · exact ⟨Local.emit_setTrack rfl rfl rfl rfl, .inr ⟨by simp [startNote, emitPlain], by simp [startNote, emitPlain],
          by simp [startNote, emitPlain]⟩⟩
      · simp only [startNote, emitPlain_eq, setTrack_setTrack, setTrack_track, emit_track]
        exact ⟨Local.emit_setTrack rfl rfl rfl rfl, .inr ⟨by simp, by simp, by simp [Track.advanced]⟩⟩
    · exact hbad
  · split
    · simp only [startNote, emitSlide, setTrack_setTrack, setTrack_track, emit_track]
      exact ⟨Local.emit_setTrack rfl rfl rfl rfl, .inr ⟨by simp, by simp, by simp [Track.advanced]⟩⟩
    · exact hbad

theorem withBytes_effect {n : Nat} {f : State → State} {s : State} (h : Effect n s (f s)) :
    ∃ s', withBytes n f s = .next s' ∧ Effect n s s' ∧ (n ≤ s.track.avail ∨ s' = raiseFault .truncatedStream s) := by
  unfold withBytes
  split
  · exact ⟨_, rfl, h, .inl ‹_›⟩
  · exact ⟨_, rfl, ⟨raiseFault_local .., .inl ⟨_, by simp, rfl⟩⟩, .inr rfl⟩

theorem setTrack_effect {n : Nat} {s : State} {t : Track} (h1 : t.ch = s.track.ch) (h2 : t.mode = s.track.mode)
    (h3 : t.endOff = s.track.endOff) (h4 : t.play = s.track.play) (h5 : t.halt = s.track.halt)
    (h6 : t.fault = s.track.fault) (h7 : t.cur = s.track.advanced n) : Effect n s (s.setTrack t) :=
  ⟨Local.setTrack h1 h2 h3 h4, .inr ⟨by simpa using h5, by simpa using h6, by simpa using h7⟩⟩

/-- Everything an instruction can do. -/
theorem exec_effect (i : Instr) (s : State) :
    ∃ s', exec i s = .next s' ∧ Effect i.size s s' ∧
      (i.size ≤ max 1 s.track.avail ∨ s' = raiseFault .truncatedStream s) := by
  have one : ∀ {t : Track}, t.ch = s.track.ch → t.mode = s.track.mode → t.endOff = s.track.endOff →
      t.play = s.track.play → t.halt = s.track.halt → t.fault = s.track.fault → t.cur = s.track.advanced 1 →
      ∃ s', Host.Outcome.next (s.setTrack t) = (.next s' : Host.Outcome State Fault Refusal) ∧ Effect 1 s s' ∧
        (1 ≤ max 1 s.track.avail ∨ s' = raiseFault .truncatedStream s) :=
    fun h1 h2 h3 h4 h5 h6 h7 => ⟨_, rfl, setTrack_effect h1 h2 h3 h4 h5 h6 h7, .inl (by omega)⟩
  have many : ∀ {n : Nat} {f : State → State}, Effect n s (f s) →
      ∃ s', withBytes n f s = .next s' ∧ Effect n s s' ∧
        (n ≤ max 1 s.track.avail ∨ s' = raiseFault .truncatedStream s) := by
    intro n f h
    obtain ⟨s', h1, h2, h3⟩ := withBytes_effect h
    exact ⟨s', h1, h2, h3.imp (by omega) id⟩
  cases i with
  | note p l => exact many (noteEffect_effect p l s)
  | swait t => exact one rfl rfl rfl rfl rfl rfl rfl
  | seg n => exact one rfl rfl rfl rfl rfl rfl rfl
  | setpan c => exact one rfl rfl rfl rfl rfl rfl rfl
  | _ => exact many (setTrack_effect rfl rfl rfl rfl rfl rfl rfl)

end Sys2Proof.Machine
end

