-- ==== Sys2Proof/Laws/Inv.lean ====
section
/-! SUPPORT. The invariant as one conjunction, which can be decided on a concrete state. -/
namespace Sys2Proof.Machine

/-- The invariant of a track context as a conjunction. -/
theorem Track.inv_iff {L : Word} {t : Track} :
    t.Inv L ↔ t.cur.toNat ≤ t.endOff.toNat ∧ t.endOff.toNat ≤ L.toNat ∧ t.pan.toNat ≤ 2 ∧
      t.etl.toNat + t.elap.toNat ≤ 32831 ∧ t.last.toNat ≤ 87 ∧ t.segl.toNat ≤ 71 ∧ t.segp.toNat ≤ 71 ∧
      t.arpptr.toNat ≤ t.endOff.toNat ∧
      (t.arpon = true → 2 ≤ t.last.toNat ∧ t.arpptr.toNat + t.last.toNat ≤ t.endOff.toNat) ∧
      (t.halt = true → t.etl = 0) ∧ (t.halt = true ↔ t.fault ≠ .none) :=
  ⟨fun ⟨a, b, c, d, e, f, g, h, i, j, k⟩ => ⟨a, b, c, d, e, f, g, h, i, j, k⟩,
    fun ⟨a, b, c, d, e, f, g, h, i, j, k⟩ => ⟨a, b, c, d, e, f, g, h, i, j, k⟩⟩

/-- The invariant of the machine as a conjunction. -/
theorem inv_iff {s : State} :
    Inv s ↔ s.mem.wf ∧ s.rom = freqTable ∧ s.act = 0 ∧ s.ntrk.toNat ≤ maxTrackCount ∧
      (∀ i : Fin numTracks, s.tracks[i].Inv s.buflen) ∧
      (∀ i : Fin numTracks, s.ntrk.toNat ≤ i.val → s.tracks[i] = Track.reset) ∧
      (s.status ≠ .ready → s.ntrk = 0) ∧ s.playing = anyPlaying s :=
  ⟨fun ⟨a, b, c, d, e, f, g, h⟩ => ⟨a, b, c, d, e, f, g, h⟩, fun ⟨a, b, c, d, e, f, g, h⟩ => ⟨a, b, c, d, e, f, g, h⟩⟩

end Sys2Proof.Machine
end

