-- ==== Sys2Proof/Laws/PerInstr.lean ====
section
/-! SUPPORT. Statements about the instructions as syntax, one lemma per constructor. -/
namespace Sys2Proof.Laws

/-- The encoding of an instruction has exactly the length of 30_encoding.md R77. -/
def EncodedSize.Statement (i : Instr) : Prop := (encode i).length = i.size

theorem EncodedSize.lwait (l : LenField) : EncodedSize.Statement (.lwait l) := by
  simp [EncodedSize.Statement, encode, encodeIn, Instr.size, Nat.add_comm]
theorem EncodedSize.swait (ticks : BitVec 6) : EncodedSize.Statement (.swait ticks) := rfl
theorem EncodedSize.note (pitch : Byte) (l : LenField) : EncodedSize.Statement (.note pitch l) := by
  simp [EncodedSize.Statement, encode, encodeIn, Instr.size, Nat.add_comm]
theorem EncodedSize.seg (n : BitVec 9) : EncodedSize.Statement (.seg n) := rfl
theorem EncodedSize.arp (l : LenField) (pitches : List Byte) : EncodedSize.Statement (.arp l pitches) := by
  simp [EncodedSize.Statement, encode, encodeIn, Instr.size]; omega
theorem EncodedSize.setvol (b : Byte) : EncodedSize.Statement (.setvol b) := rfl
theorem EncodedSize.setatk (b : Byte) : EncodedSize.Statement (.setatk b) := rfl
theorem EncodedSize.setdec (b : Byte) : EncodedSize.Statement (.setdec b) := rfl
theorem EncodedSize.setsus (b : Byte) : EncodedSize.Statement (.setsus b) := rfl
theorem EncodedSize.setrel (b : Byte) : EncodedSize.Statement (.setrel b) := rfl
theorem EncodedSize.setpan (c : BitVec 2) : EncodedSize.Statement (.setpan c) := rfl
theorem EncodedSize.setarpspd (b : Byte) : EncodedSize.Statement (.setarpspd b) := rfl

end Sys2Proof.Laws
end

