-- ==== Sys2Proof/Laws/Tick.lean ====
section
/-! SUPPORT. What the pieces of a TICK can do, said once each: one execution at the cursor, the dispatch loop, the event step,
the processing of one track, the four tracks, the command. -/
namespace Sys2Proof.Machine

theorem ready_iff {t : Track} : t.ready = true ↔ t.etl = 0 ∧ t.halt = false ∧ t.cur.toNat < t.endOff.toNat := by
  simp [Track.ready, and_assoc]

theorem advanced_toNat {t : Track} {n : Nat} (h : n ≤ t.avail) : (t.advanced n).toNat = t.cur.toNat + n := by
  have := t.endOff.isLt
  unfold Track.avail at h
  simp only [Track.advanced, BitVec.toNat_add, BitVec.toNat_ofNat]; omega

/-- A stretch of the processing of one track: the cursor only moves on, at most `n` events more than the bytes it moves on
are emitted, and nothing outside the track changes. -/
structure Within (n : Nat) (s s' : State) : Prop where
  same : SameElsewhere s s'
  mem : s'.mem = s.mem
  ch : s'.track.ch = s.track.ch
  mode : s'.track.mode = s.track.mode
  endOff : s'.track.endOff = s.track.endOff
  cur : s.track.cur.toNat ≤ s'.track.cur.toNat
  out : ∃ evs, s'.out = s.out ++ evs ∧ evs.length + s.track.cur.toNat ≤ n + s'.track.cur.toNat ∧
    ∀ e ∈ evs, e.track = s.act

theorem Within.refl (n : Nat) (s : State) : Within n s s :=
  ⟨.refl s, rfl, rfl, rfl, rfl, le_rfl, [], by simp, by simp, by simp⟩

theorem Within.trans {n m : Nat} {s1 s2 s3 : State} (h : Within n s1 s2) (g : Within m s2 s3) : Within (n + m) s1 s3 := by
  obtain ⟨e1, a1, b1, c1⟩ := h.out
  obtain ⟨e2, a2, b2, c2⟩ := g.out
  refine ⟨h.same.trans g.same, g.mem.trans h.mem, g.ch.trans h.ch, g.mode.trans h.mode, g.endOff.trans h.endOff,
    h.cur.trans g.cur, e1 ++ e2, by simp [a1, a2], by simp; omega, fun e he => ?_⟩
  rcases List.mem_append.1 he with he | he
  · exact c1 e he
  · rw [c2 e he, h.same.act]

theorem Within.raiseFault (n : Nat) (c : TrackFault) (s : State) : Within n s (raiseFault c s) :=
  ⟨raiseFault_same .., rfl, by simp, by simp, by simp, by simp, [], by simp, by simp, by simp⟩

/-- Everything one execution at the cursor can do: a fault, or the cursor moves on, at most to END, and the fault fields stay
(42_tick_dispatcher.md R116, R119). -/
theorem executeOne_cases {s s' : State} (hr : s.track.ready = true) (h : executeOne s = .next s') :
    Within 0 s s' ∧ s'.track.play = s.track.play ∧
      ((∃ c, c ≠ .none ∧ s' = raiseFault c s) ∨
        (s'.track.halt = false ∧ s'.track.fault = s.track.fault ∧ s.track.cur.toNat < s'.track.cur.toNat ∧
          s'.track.cur.toNat ≤ s.track.endOff.toNat)) := by
  have hr' := ready_iff.1 hr
  have hav : 0 < s.track.avail := by unfold Track.avail; omega
  have fault : ∀ c, c ≠ .none → s' = raiseFault c s → Within 0 s s' ∧ s'.track.play = s.track.play ∧
      ((∃ c, c ≠ .none ∧ s' = raiseFault c s) ∨
        (s'.track.halt = false ∧ s'.track.fault = s.track.fault ∧ s.track.cur.toNat < s'.track.cur.toNat ∧
          s'.track.cur.toNat ≤ s.track.endOff.toNat)) := by
    rintro c hc rfl
    exact ⟨.raiseFault .., by simp, .inl ⟨c, hc, rfl⟩⟩
  have adv : ∀ n, 1 ≤ n → n ≤ s.track.avail → Local s s' → Advanced n s s' →
      Within 0 s s' ∧ s'.track.play = s.track.play ∧
      ((∃ c, c ≠ .none ∧ s' = raiseFault c s) ∨
        (s'.track.halt = false ∧ s'.track.fault = s.track.fault ∧ s.track.cur.toNat < s'.track.cur.toNat ∧
          s'.track.cur.toNat ≤ s.track.endOff.toNat)) := by
    intro n h1 h2 hl ha
    have hc : s'.track.cur.toNat = s.track.cur.toNat + n := by rw [ha.2.2, advanced_toNat h2]
    unfold Track.avail at h2
    obtain ⟨evs, e1, e2, e3⟩ := hl.out
    exact ⟨⟨hl.same, hl.mem, hl.ch, hl.mode, hl.endOff, by omega, evs, e1, by omega, e3⟩, hl.play,
      .inr ⟨ha.1.trans hr'.2.1, ha.2.1, by omega, by omega⟩⟩
  unfold executeOne at h
  split at h
  · next i r hd =>
    obtain ⟨s1, h1, ⟨hl, he⟩, h3⟩ := exec_effect i s
    rw [h1] at h; cases h
    rcases he with ⟨c, hc, he⟩ | he
    · exact fault c hc he
    · rcases h3 with h3 | h3
      · exact adv i.size (instr_size_pos i) (by omega) hl he
      · exact fault _ (by simp) h3
  · next e hd =>
    unfold undecoded at h
    split at h
    · cases h
      exact adv 1 le_rfl hav (Local.setTrack rfl rfl rfl rfl) ⟨by simp, by simp, by simp⟩
    all_goals
      split at h
      · split at h
        · cases h
        · exact fault .truncatedStream (by simp) (by cases h; rfl)
      · exact fault .truncatedStream (by simp) (by cases h; rfl)

theorem dispatchLoop_of_not_ready {n : Nat} {s : State} (h : s.track.ready = false) : dispatchLoop n s = .next s := by
  cases n <;> simp [dispatchLoop, h]

/-- Everything the dispatch loop can do to the track (42_tick_dispatcher.md R115). -/
theorem dispatchLoop_cases (n : Nat) : ∀ {s s' : State}, dispatchLoop n s = .next s' →
    Within 0 s s' ∧ s'.track.play = s.track.play ∧
      (s.track.cur.toNat ≤ s.track.endOff.toNat → s'.track.cur.toNat ≤ s.track.endOff.toNat) := by
  induction n with
  | zero => intro s s' h; cases h; exact ⟨.refl 0 s, rfl, id⟩
  | succ n ih =>
    intro s s' h
    unfold dispatchLoop at h
    split at h
    · next hr =>
      obtain ⟨s1, h1, h2⟩ := andThen_eq_next.1 h
      obtain ⟨a, b, c⟩ := executeOne_cases hr h1
      obtain ⟨d, e, f⟩ := ih h2
      refine ⟨a.trans d, e.trans b, fun hc => ?_⟩
      rw [a.endOff] at f
      rcases c with ⟨k, -, rfl⟩ | ⟨-, -, -, hc'⟩
      · exact f (by simpa using hc)
      · exact f hc'
    · cases h; exact ⟨.refl 0 s, rfl, id⟩

@[simp] theorem markPlaying_track (s : State) : (markPlaying s).track = { s.track with play := true } := setTrack_track ..

/-- Everything the arpeggio step can do (45_arpeggio.md R153 to R155). -/
theorem arpStep_cases {s s' : State} (h : arpStep s = .next s') :
    s' = s ∨ s' = raiseFault .arpSpeedZero s ∨ s' = raiseFault .badPitch s ∨
      ∃ f, s' = emitPlain f s.track.arpspd.toNat 0 s := by
  unfold arpStep at h
  simp only at h
  split at h
  · cases h; simp
  · split at h
    · cases h; simp
    · split at h
      · cases h
      · split at h
        · cases h
        · cases h
          unfold retrigger; split
          · next f _ => exact .inr (.inr (.inr ⟨f, rfl⟩))
          · simp

/-- Everything the event step can do (42_tick_dispatcher.md R120 to R122): nothing, or PLAY with a fault, or PLAY and the
counters with at most one event. -/
theorem eventStep_cases {s s' : State} (h : eventStep s = .next s') :
    ((s.track.halt = true ∨ s.track.etl = 0) ∧ s' = s) ∨
    (s.track.halt = false ∧ s.track.etl ≠ 0 ∧
      ((∃ c, c ≠ .none ∧ s' = raiseFault c (markPlaying s)) ∨ s' = countTick (markPlaying s) ∨
        ∃ f, s' = countTick (emitPlain f s.track.arpspd.toNat 0 (markPlaying s)))) := by
  unfold eventStep at h
  split at h
  · next hc => cases h; exact .inl ⟨by simpa using hc, rfl⟩
  · next hc =>
    simp only [Bool.or_eq_true, beq_iff_eq, not_or, Bool.not_eq_true] at hc
    refine .inr ⟨hc.1, hc.2, ?_⟩
    split at h
    · obtain ⟨s1, h1, h2⟩ := andThen_eq_next.1 h
      unfold countUnlessHalted at h2
      rcases arpStep_cases h1 with rfl | rfl | rfl | ⟨f, rfl⟩
      · rw [if_neg (by simp [hc.1])] at h2
        cases h2; exact .inr (.inl rfl)
      · rw [if_pos (by simp)] at h2
        cases h2; exact .inl ⟨_, by simp, rfl⟩
      · rw [if_pos (by simp)] at h2
        cases h2; exact .inl ⟨_, by simp, rfl⟩
      · rw [if_neg (by simp [emitPlain_eq, hc.1])] at h2
        cases h2; exact .inr (.inr ⟨f, by simp⟩)
    · cases h; exact .inr (.inl rfl)

/-- The event step stays within its track and leaves the cursor where it is. -/
theorem eventStep_within {s s' : State} (h : eventStep s = .next s') :
    Within 1 s s' ∧ s'.track.cur = s.track.cur := by
  have mark : ∀ t : Track, t.ch = s.track.ch → t.mode = s.track.mode → t.endOff = s.track.endOff →
      t.cur = s.track.cur → Within 1 s (s.setTrack t) := fun t h1 h2 h3 h4 =>
    ⟨setTrack_same .., rfl, by simpa, by simpa, by simpa, by simp [h4], [], by simp, by simp [h4], by simp⟩
  rcases eventStep_cases h with ⟨-, rfl⟩ | ⟨-, -, ⟨c, -, rfl⟩ | rfl | ⟨f, rfl⟩⟩
  · exact ⟨.refl 1 _, rfl⟩
  · simp only [raiseFault, markPlaying, setTrack_setTrack, setTrack_track]
    exact ⟨mark _ rfl rfl rfl rfl, trivial⟩
  · simp only [countTick, markPlaying, setTrack_setTrack, setTrack_track]
    exact ⟨mark _ rfl rfl rfl rfl, trivial⟩
  · simp only [countTick, emitPlain_eq, setTrack_track, markPlaying_track, emit_track]
    exact ⟨⟨(setTrack_same ..).trans ((emit_same ..).trans (setTrack_same ..)), rfl, by simp, by simp, by simp, by simp,
      _, rfl, by simp, by simp [markPlaying]⟩, trivial⟩

/-- The processing of one track leaves the other tracks alone and stays within its own. -/
theorem processTrack_within {i : Fin numTracks} {s s' : State} (h : processTrack i s = .next s') :
    Within 1 (beginTrack i s) s' ∧
      (s.tracks[i].cur.toNat ≤ s.tracks[i].endOff.toNat → s'.track.cur.toNat ≤ s.tracks[i].endOff.toNat) := by
  unfold processTrack at h
  simp only at h
  split at h
  · cases h; exact ⟨.refl 1 _, by simp⟩
  · obtain ⟨s1, h1, h2⟩ := andThen_eq_next.1 h
    obtain ⟨w1, -, c1⟩ := dispatchLoop_cases _ h1
    obtain ⟨w2, c2⟩ := eventStep_within h2
    refine ⟨by simpa using w1.trans w2, fun hc => ?_⟩
    rw [c2]
    rw [beginTrack_track] at c1
    exact c1 hc

theorem processTrack_of_halted {i : Fin numTracks} {s : State} (h : s.tracks[i].halt = true) :
    processTrack i s = .next (beginTrack i s) := by
  simp only [processTrack, beginTrack_track]; rw [if_pos h]

/-- The four tracks are processed one after the other (42_tick_dispatcher.md R113). -/
theorem processTracks_four {s s' : State} : processTracks [0, 1, 2, 3] s = .next s' ↔
    ∃ s1 s2 s3, processTrack 0 s = .next s1 ∧ processTrack 1 s1 = .next s2 ∧ processTrack 2 s2 = .next s3 ∧
      processTrack 3 s3 = .next s' := by
  simp only [processTracks, andThen_eq_next]
  constructor
  · rintro ⟨s1, h1, s2, h2, s3, h3, s4, h4, h5⟩
    cases h5; exact ⟨s1, s2, s3, h1, h2, h3, h4⟩
  · rintro ⟨s1, s2, s3, h1, h2, h3, h4⟩
    exact ⟨s1, h1, s2, h2, s3, h3, s', h4, rfl⟩

/-- Everything a TICK can do (42_tick_dispatcher.md R112, R124). -/
theorem tick_cases {s s' : State} (h : tick s = .next s') :
    (s.status ≠ .ready ∧ s' = { s with playing := false, replies := s.replies ++ [.tick false] }) ∨
    (s.status = .ready ∧ s.bufWritten = false ∧ ∃ t, processTracks [0, 1, 2, 3] s = .next t ∧ s' = endTick t) := by
  unfold tick at h
  split at h
  · cases h; exact .inl ⟨‹_›, rfl⟩
  · split at h
    · cases h
    · obtain ⟨t, h1, h2⟩ := andThen_eq_next.1 h
      cases h2
      exact .inr ⟨not_not.1 ‹_›, by simpa using ‹¬ s.bufWritten = true›, t, h1, rfl⟩

end Sys2Proof.Machine
end

