-- ==== Sys2Proof/Tests/Slice0.lean ====
section
/-! SUPPORT. Tests. Expected values are from 95_test_vectors.md (cited by vector number) or computed by hand from the rule
cited. The `witness` theorems show a state and operands that meet all the hypotheses of a statement at once. -/
namespace Sys2Proof.Tests
open Sys2Proof.Machine

/-- The state after an accepted INIT of the one-track song of `stream`, a TICK next. -/
def song (stream : List Byte) : State := loadStream stream State.reset

/-- The same with the processing of track 0 begun. -/
def begun (stream : List Byte) : State := beginTrack 0 (song stream)

/-- The same with the context of track 0 as `f` makes it. -/
def with0 (stream : List Byte) (f : Track → Track) : State := (begun stream).setTrack (f (begun stream).track)

/-- Fields of track 0 after a step. -/
def after {α : Type} (o : Host.Outcome State Fault Refusal) (f : Track → α) : Option α :=
  match o with
  | .next s => some (f s.tracks[0])
  | _ => none

/-- Fields of the state after a step. -/
def afterS {α : Type} (o : Host.Outcome State Fault Refusal) (f : State → α) : Option α :=
  match o with
  | .next s => some (f s)
  | _ => none

/-- The events emitted: frequency, duration, volume and flags words. -/
def emitted (o : Host.Outcome State Fault Refusal) : Option (List (Nat × Nat × Nat × Nat)) :=
  afterS o fun s => s.out.map fun e => (e.freq.toNat, e.dur.toNat, e.vol.toNat, e.flags.toNat)

/-- The model's own stop, if any. -/
def stop (o : Host.Outcome State Fault Refusal) : Option Fault :=
  match o with
  | .fault f => some f
  | _ => none

/-- There is a next state with `p`. -/
theorem exists_of_afterS {o : Host.Outcome State Fault Refusal} {p : State → Bool} (h : afterS o p = some true) :
    ∃ s, o = .next s ∧ p s = true := by
  cases o with
  | next s => exact ⟨s, rfl, by simpa [afterS] using h⟩
  | _ => cases h

/-- The dispatch loop of track 0 leaves a state with `p`. -/
theorem exists_leaves {s : State} {p : State → Bool} (h0 : s.tracks[0].halt = false)
    (h : afterS (dispatchLoop (beginTrack 0 s).track.avail (beginTrack 0 s)) p = some true) :
    ∃ s2, LoopLeaves 0 s s2 ∧ p s2 = true :=
  have ⟨s2, h1, h2⟩ := exists_of_afterS h
  ⟨s2, ⟨h0, h1⟩, h2⟩

/-! ### Well-formedness: each check refuses an ill-formed term (30_encoding.md R81, R90) -/

theorem test_wf_swait_zero : (Instr.swait 0).wellFormed = false := by decide
theorem test_wf_note_88 : (Instr.note 88 (.v1 0)).wellFormed = false := by decide
theorem test_wf_seg_bounds : (Instr.seg 0).wellFormed = false ∧ (Instr.seg 72).wellFormed = false := by decide
theorem test_wf_arp_bounds : (Instr.arp (.v1 0) [40]).wellFormed = false ∧
    (Instr.arp (.v1 0) (List.replicate 26 40)).wellFormed = false := by decide
theorem test_wf_setpan_3 : (Instr.setpan 3).wellFormed = false := by decide
theorem test_wf_accepts : (Instr.note 87 (.v1 0)).wellFormed = true ∧ (Instr.seg 71).wellFormed = true ∧
    (Instr.arp (.v1 0) (List.replicate 25 255)).wellFormed = true ∧ (Instr.setpan 2).wellFormed = true ∧
    (Instr.swait 63).wellFormed = true := by decide
theorem test_layout_overlap : ({ w4onL1 with segSpan := 72 } : Layout).legal = false := by decide

/-! ### Decoding: every constructor's word, written out from 30_encoding.md R78, R85 and 95_test_vectors.md 3.1, 3.2 -/

theorem test_decode_lwait : decode [0x00, 0x81, 0x00] = .ok (.lwait (.v2 256), []) := by decide
theorem test_decode_swait : decode [0x01] = .ok (.swait 1, []) ∧ decode [0x3F] = .ok (.swait 63, []) := by decide
theorem test_decode_note : decode [0x40, 0x7F] = .ok (.note 0 (.v1 127), []) ∧
    decode [0x97, 0x81, 0x2C] = .ok (.note 87 (.v2 300), []) := by decide
theorem test_decode_note_long_form : decode [0x68, 0x80, 0x0A] = .ok (.note 40 (.v2 10), []) := by decide
theorem test_decode_seg : decode [0x98] = .ok (.seg 1, []) ∧ decode [0xDE] = .ok (.seg 71, []) := by decide
theorem test_decode_arp : decode [0xDF, 0x08, 0x28, 0x2C] = .ok (.arp (.v1 8) [40, 44], []) ∧
    decode [0xE0, 0x81, 0x00, 0x28, 0x2C, 0x2F, 0x05] = .ok (.arp (.v2 256) [40, 44, 47], [0x05]) := by decide
theorem test_decode_setvol : decode [0xF7, 0x32] = .ok (.setvol 50, []) := by decide
theorem test_decode_setatk : decode [0xF8, 0x02] = .ok (.setatk 2, []) := by decide
theorem test_decode_setdec : decode [0xF9, 0x03] = .ok (.setdec 3, []) := by decide
theorem test_decode_setsus : decode [0xFA, 0x80] = .ok (.setsus 128, []) := by decide
theorem test_decode_setrel : decode [0xFB, 0x04] = .ok (.setrel 4, []) := by decide
theorem test_decode_setpan : decode [0xFC] = .ok (.setpan 0, []) ∧ decode [0xFE] = .ok (.setpan 2, []) := by decide
theorem test_decode_setarpspd : decode [0xFF, 0x02] = .ok (.setarpspd 2, []) := by decide
theorem test_decode_truncated : decode [0x68, 0x80] = .error (.truncated 0x68) ∧
    decode [0xDF, 0x02, 0x28] = .error (.truncated 0xDF) ∧ decode [] = .error .noByte := by decide
theorem test_encode : encode (.arp (.v2 256) [40, 44, 47]) = [0xE0, 0x81, 0x00, 0x28, 0x2C, 0x2F] ∧
    encode (.note 40 (.v2 300)) = [0x68, 0x81, 0x2C] ∧ encode (.seg 71) = [0xDE] ∧ encode (.setpan 1) = [0xFD] := by decide

/-- Every opcode byte of the table, its operand bytes zero, decodes (30_encoding.md R86). -/
theorem test_table_words : ∀ b : Byte, (decodeTableWord 8 b.toNat).isSome = true := by decide
theorem test_table_word_operand : decodeTableWord 16 0x32F7 = some (.setvol 50) := by decide

/-- The instruction placed where the step fetches runs as the first one (43_setters.md R135, 46_waits.md R159). -/
theorem test_fetch_word : after (step (State.reset.withFetchWord 16 0x32F7)) (fun t => (t.vol, t.cur)) = some (50, 6) ∧
    after (step (State.reset.withFetchWord 8 0x3F)) (fun t => (t.etl, t.elap, t.cur)) = some (62, 1, 5) := by decide

/-! ### Codec, frequency, envelope and words (95_test_vectors.md sections 2 and 4) -/

theorem test_codec : encodeLength 127 = [0x7F] ∧ encodeLength 128 = [0x80, 0x80] ∧ encodeLength 300 = [0x81, 0x2C] ∧
    encodeLength 32767 = [0xFF, 0xFF] := by decide
theorem test_freq : freq freqTable 0 = some 27 ∧ freq freqTable 40 = some 277 ∧ freq freqTable 87 = some 4186 ∧
    freq freqTable 131 = some 53159 ∧ freq freqTable 132 = none ∧ freq freqTable 255 = none := by decide
theorem test_envelope : envelope 10 2 3 = ⟨2, 3, 5⟩ ∧ envelope 4 2 3 = ⟨2, 2, 0⟩ ∧ envelope 1 2 3 = ⟨1, 0, 0⟩ ∧
    envelope 300 255 255 = ⟨255, 45, 0⟩ := by decide
theorem test_pack_dur : packDur .unmasked 5 4 3 2 = 0x02030405#32 ∧ packDur .unmasked 300 5 0 0 = 0x52C#32 ∧
    packDur .unmasked 32769 0 0 0 = 0x8001#32 ∧ packDur .masked 300 5 0 0 = 0x52C#32 ∧
    packDur .masked 300 4 0 0 = 0x42C#32 := by decide
theorem test_vol_word : volWord { Track.reset with vol := 50, sus := 200 } = 0x3227#32 ∧
    volWord { Track.reset with vol := 255, sus := 128 } = 0xFF80#32 := by decide
theorem test_flags_word : flagsWord { Track.reset with ch := 2, mode := 1, pan := 2 } = 0x26#32 := by decide

/-! ### One step of each instruction -/

/-- Vectors 5.1, 5.6, 5.8, 5.4, 5.10 and 5.14: the first TICK. -/
theorem test_setvol : emitted (step (song [0xF7, 0x32, 0x68, 0x04])) = some [(0x115, 4, 0x3232, 0)] := by decide
theorem test_setatk : emitted (step (song [0xF8, 0x01, 0x68, 0x04])) = some [(0x115, 0x01000003, 0x6464, 0)] := by decide
theorem test_setdec : emitted (step (song [0xF9, 0x02, 0x68, 0x04])) = some [(0x115, 0x00020002, 0x6464, 0)] := by decide
theorem test_setsus : emitted (step (song [0xFA, 0x80, 0x68, 0x04])) = some [(0x115, 4, 0x6432, 0)] := by decide
theorem test_setrel : emitted (step (song [0xFB, 0x07, 0x68, 0x04])) = some [(0x115, 0x704, 0x6464, 0)] := by decide
theorem test_setarpspd : after (step (song [0xFF, 0x05, 0x68, 0x04])) (fun t => (t.arpspd, t.cur, t.etl)) =
    some (5, 8, 3) := by decide
/-- Vector 5.13. -/
theorem test_setpan : emitted (step (song [0xFE, 0x68, 0x04])) = some [(0x115, 4, 0x6464, 0x20)] := by decide
/-- Vector 6.1.4. -/
theorem test_seg : after (step (song [0x98])) (fun t => (t.cur, t.segl, t.segp, t.etl)) = some (5, 0, 1, 0) := by decide
/-- Vector 6.2.1: in IMMEDIATE mode the first note after SEG 1 slides from LAST = 0. -/
theorem test_seg_immediate : emitted (exec (.note 40 (.v1 4)) (with0 [0x68, 0x04] (markSegments .immediate 1))) =
    some [(0x0115001B, 6, 0x6464, 0)] := by decide
/-- Vector 6.1.11: the plain tone with the pop-guard, then the slide, both of length 0, in one TICK. -/
theorem test_note_plain_and_slide : emitted (step (song [0x98, 0x68, 0x00, 0x6D, 0x00])) =
    some [(0x115, 2, 0x6464, 0), (0x01710115, 2, 0x6464, 0)] := by decide
/-- Vector 1.3. -/
theorem test_note : after (step (song [0x68, 0x0A])) (fun t => (t.cur, t.last, t.etl, t.elap, t.play)) =
    some (6, 40, 9, 1, true) := by decide
/-- Vector 7.2: the first retrigger. -/
theorem test_arp : emitted (step (song [0xDF, 0x04, 0x28, 0x2C])) = some [(0x115, 1, 0x6464, 0)] ∧
    after (step (song [0xDF, 0x04, 0x28, 0x2C])) (fun t => (t.arpptr, t.last, t.cur)) = some (6, 2, 8) := by decide
/-- SWAIT and LWAIT (46_waits.md R159, R160): 63 ticks, and 256 + 64 ticks, one of them gone. -/
theorem test_swait : after (step (song [0x3F])) (fun t => (t.etl, t.elap, t.cur, t.play)) = some (62, 1, 5, true) := by
  decide
theorem test_lwait : after (step (song [0x00, 0x81, 0x00])) (fun t => (t.etl, t.elap, t.cur)) = some (319, 1, 7) := by
  decide

/-! ### Faults and commands -/

/-- Vector 7.8. -/
theorem test_arp_speed_zero : after (step (song [0xFF, 0x00, 0xDF, 0x04, 0x28, 0x2C]))
    (fun t => (t.halt, t.fault, t.play, t.elap)) = some (true, .arpSpeedZero, true, 0) := by decide
/-- Vector 7.9: the second TICK. -/
theorem test_bad_pitch : after (ticks 2 (song [0xDF, 0x04, 0x28, 0x84]))
    (fun t => (t.halt, t.fault, t.cur, t.elap)) = some (true, .badPitch, 8, 1) := by decide
/-- A NOTE whose length byte lies at END (60_exceptions.md R172). -/
theorem test_truncated : after (step (song [0x68])) (fun t => (t.halt, t.fault, t.cur, t.play)) =
    some (true, .truncatedStream, 4, false) := by decide
/-- Vector 1.7: a stream size past the buffer. -/
theorem test_malformed : afterS (initCommand 6 { State.reset with
      mem := Memory.writeAll [] 0 [0x01, 0x00, 0x09, 0x00, 0x68, 0x0A] })
    (fun s => (s.status, s.ntrk, s.replies)) = some (.malformed, 0, [.init false]) := by decide
/-- Vector 1.3: INIT gives CUR = 4 and END = 6; with flags byte 0x0B, CH = 3 and MODE = 2. -/
theorem test_init : after (initCommand 6 { State.reset with
      mem := Memory.writeAll [] 0 [0x01, 0x00, 0x03, 0x0B, 0x68, 0x0A] })
    (fun t => (t.cur, t.endOff, t.ch, t.mode)) = some (4, 6, 3, 2) := by decide
/-- Vector 10.14: flags bits 7..4 are ignored. -/
theorem test_init_flags_high_bits : after (initCommand 4 { State.reset with
      mem := Memory.writeAll [] 0 [0x01, 0x00, 0x01, 0xF6] })
    (fun t => (t.cur, t.endOff, t.ch, t.mode)) = some (4, 4, 2, 1) := by decide
/-- Vector 10.6: a stream size of 0 is refused. -/
theorem test_init_size_zero : afterS (initCommand 4 { State.reset with
      mem := Memory.writeAll [] 0 [0x01, 0x00, 0x00, 0x00] })
    (fun s => (s.status, s.ntrk, s.replies)) = some (.malformed, 0, [.init false]) := by decide
/-- A byte the host has not placed stops the model by name (log 4). -/
theorem test_unplaced_byte : stop (initCommand 6 State.reset) = some (.unplacedByte 0) := by decide
/-- The assembler's bytes of SETVOL 80, WAIT 64 and NOTE 40, 300 (30_encoding.md R90, R91). -/
theorem test_assembler : assembleSong [(0, 0, [.setvol 80, .wait 64, .note 40 300])] =
    some [0x01, 0x00, 0x08, 0x00, 0xF7, 0x50, 0x00, 0x00, 0x68, 0x81, 0x2C] := by decide

/-! ### Witnesses: each meets all the hypotheses of the statement named, at a boundary of its range where there is one -/

/-- A layout that leaves opcodes of no category: SEG spans one opcode only. -/
def sparse : Layout := { w4onL1 with segSpan := 1 }

theorem witness_DecodeOfEncodeGivesItBack : w4onL1.legal = true ∧ sparse.legal = true ∧
    (Instr.arp (.v2 32767) (List.replicate 25 255)).wellFormedIn w4onL1 = true ∧
    (Instr.seg 1).wellFormedIn sparse = true := by decide
theorem witness_DecodedBytesAreTheEncoding : w4onL1.legal = true ∧
    decodeIn w4onL1 [0x68, 0x80, 0x0A, 0xFF] = .ok (.note 40 (.v2 10), [0xFF]) := by decide
theorem witness_UnknownOpcodeIsSkipped : sparse.legal = true ∧ ∀ c, sparse.owns (200 : Byte).toNat c = false :=
  ⟨by decide, fun c => by cases c <;> decide⟩
theorem witness_LengthCodecRoundTrips : (127 : BitVec 15).toNat ≤ 127 ∧ 128 ≤ (128 : BitVec 15).toNat := by decide
theorem witness_LengthFieldValue : (127 : Byte).toNat < 128 ∧ 128 ≤ (128 : Byte).toNat := by decide
theorem witness_CutInstructionIsTruncated : (Instr.arp (.v1 8) [40, 44]).wellFormed = true ∧ 0 < 3 ∧
    3 < (Instr.arp (.v1 8) [40, 44]).size := by decide

/-- The instruction's last byte is the stream's last. -/
theorem witness_SettersWriteTheirField : 2 ≤ (begun [0xF7, 0x32]).track.avail := by decide
theorem witness_PlainNoteCompletes : 1 + (LenField.v1 10).size ≤ (begun [0x68, 0x0A]).track.avail ∧
    (begun [0x68, 0x0A]).track.segl = 0 ∧ freq (begun [0x68, 0x0A]).rom 40 = some 277 := by decide
/-- The same with a pending count. -/
theorem witness_PlainNoteCompletes_pending :
    1 + (LenField.v1 10).size ≤ (with0 [0x68, 0x0A] fun t => { t with segp := 1 }).track.avail ∧
    (with0 [0x68, 0x0A] fun t => { t with segp := 1 }).track.segl = 0 ∧
    (with0 [0x68, 0x0A] fun t => { t with segp := 1 }).track.segp ≠ 0 ∧
    freq (with0 [0x68, 0x0A] fun t => { t with segp := 1 }).rom 40 = some 277 := by decide
theorem witness_SlideNoteCompletes :
    1 + (LenField.v1 4).size ≤ (with0 [0x6D, 0x04] fun t => { t with segl := 1, last := 40 }).track.avail ∧
    (with0 [0x6D, 0x04] fun t => { t with segl := 1, last := 40 }).track.segl ≠ 0 ∧
    freq (with0 [0x6D, 0x04] fun t => { t with segl := 1, last := 40 }).rom
      (with0 [0x6D, 0x04] fun t => { t with segl := 1, last := 40 }).track.last = some 277 ∧
    freq (with0 [0x6D, 0x04] fun t => { t with segl := 1, last := 40 }).rom 45 = some 369 := by decide
theorem witness_NoteTakesBadPitch : 1 + (LenField.v1 4).size ≤ (begun [0x68, 0x04]).track.avail ∧ 132 ≤ (132 : Byte).toNat :=
  by decide
theorem witness_NoteTakesBadPitch_slide :
    1 + (LenField.v1 4).size ≤ (with0 [0x68, 0x04] fun t => { t with segl := 1, last := 132 }).track.avail ∧
    (with0 [0x68, 0x04] fun t => { t with segl := 1, last := 132 }).track.segl ≠ 0 ∧
    132 ≤ (with0 [0x68, 0x04] fun t => { t with segl := 1, last := 132 }).track.last.toNat := by decide
theorem witness_ArpStartsAnArpeggio : (Instr.arp (.v1 4) [40, 44]).wellFormed = true ∧
    (Instr.arp (.v1 4) [40, 44]).size ≤ (begun [0xDF, 0x04, 0x28, 0x2C]).track.avail := by decide
theorem witness_WaitsStartARest : 1 + (LenField.v2 32767).size ≤ (begun [0x00, 0xFF, 0xFF]).track.avail := by decide
theorem witness_TruncationIsCheckedFirst : (begun [0x68]).track.avail < (Instr.note 40 (.v1 4)).size := by decide
theorem witness_StreamEndInsideInstructionFaults : (Instr.note 40 (.v2 300)).wellFormed = true ∧
    (begun [0x68, 0x81]).track.ready = true ∧ (begun [0x68, 0x81]).track.avail < (Instr.note 40 (.v2 300)).size ∧
    fetch (begun [0x68, 0x81]) = (encode (.note 40 (.v2 300))).take (begun [0x68, 0x81]).track.avail := by decide
theorem witness_FaultActionEndsTheTrack : (begun [0x68]).track.ready = true ∧
    executeOne (begun [0x68]) = .next (raiseFault .truncatedStream (begun [0x68])) := ⟨by decide, rfl⟩
theorem witness_FaultActionEndsTheTrack_halted : (raiseFault .badPitch (begun [0x68])).tracks[0].halt = true := by decide

theorem witness_EnvelopeSplitsTheLength : 255 ≤ 255 ∧ 255 ≤ 255 ∧ 32767 ≤ 32767 := by decide
theorem witness_DurationWordPacksFourFields : 65535 < 2 ^ 16 := by decide
theorem witness_VolumeWordScalesBySustain : Track.reset.sus = 255 := by decide
theorem witness_FrequencyIsTheShiftedTableEntry : (131 : Byte).toNat ≤ 131 := by decide
theorem witness_FrequencyFitsItsHalf : freq freqTable 87 = some 4186 ∧ (87 : Byte).toNat ≤ 87 ∧
    freq freqTable 131 = some 53159 := by decide

/-- An arpeggio of two notes that has run `elap` ticks at speed `spd`, its second pitch being `p`. -/
def arpeggio (spd : Byte) (elap : Half) (p : Byte) : State :=
  with0 [0xDF, 0x04, 0x28, p] fun t =>
    { t with cur := 8, arpptr := 6, arpon := true, last := 2, etl := 4, elap := elap, arpspd := spd }

theorem witness_ArpeggioStepRetriggers : (arpeggio 2 2 44).track.halt = false ∧ (arpeggio 2 2 44).track.etl ≠ 0 ∧
    (arpeggio 2 2 44).track.arpon = true ∧ (arpeggio 2 2 44).track.arpspd ≠ 0 ∧
    (arpeggio 2 2 44).track.elap.toNat % (arpeggio 2 2 44).track.arpspd.toNat = 0 ∧ (arpeggio 2 2 44).track.last ≠ 0 ∧
    (memRead (arpeggio 2 2 44) ((arpeggio 2 2 44).track.arpptr.toNat + (arpeggio 2 2 44).track.elap.toNat /
      (arpeggio 2 2 44).track.arpspd.toNat % (arpeggio 2 2 44).track.last.toNat)).toOption = some 44 ∧
    freq (arpeggio 2 2 44).rom 44 = some 349 := by decide
/-- The other clause: a tick between two retriggers. -/
theorem witness_ArpeggioStepRetriggers_between : (arpeggio 2 1 44).track.halt = false ∧
    (arpeggio 2 1 44).track.etl ≠ 0 ∧ (arpeggio 2 1 44).track.arpon = true ∧ (arpeggio 2 1 44).track.arpspd ≠ 0 ∧
    (arpeggio 2 1 44).track.elap.toNat % (arpeggio 2 1 44).track.arpspd.toNat ≠ 0 := by decide
theorem witness_ArpeggioStepFaults_speed : (arpeggio 0 2 44).track.halt = false ∧ (arpeggio 0 2 44).track.etl ≠ 0 ∧
    (arpeggio 0 2 44).track.arpon = true ∧ (arpeggio 0 2 44).track.arpspd = 0 := by decide
theorem witness_ArpeggioStepFaults : (arpeggio 2 2 132).track.halt = false ∧ (arpeggio 2 2 132).track.etl ≠ 0 ∧
    (arpeggio 2 2 132).track.arpon = true ∧ (arpeggio 2 2 132).track.arpspd ≠ 0 ∧
    (arpeggio 2 2 132).track.elap.toNat % (arpeggio 2 2 132).track.arpspd.toNat = 0 ∧
    (arpeggio 2 2 132).track.last ≠ 0 ∧ 132 ≤ (132 : Byte).toNat ∧
    (memRead (arpeggio 2 2 132) ((arpeggio 2 2 132).track.arpptr.toNat + (arpeggio 2 2 132).track.elap.toNat /
      (arpeggio 2 2 132).track.arpspd.toNat % (arpeggio 2 2 132).track.last.toNat)).toOption = some 132 := by decide

/-- A track in the last tick of a rest. -/
def resting : State := with0 [0x03] fun t => { t with cur := 5, etl := 1, elap := 2 }

theorem witness_EventStepCounts : resting.track.halt = false ∧ resting.track.etl ≠ 0 ∧ resting.track.arpon = false ∧
    (begun [0x03]).track.etl = 0 ∧ (raiseFault .badPitch resting).track.halt = true := by decide

theorem witness_StepRunsTheDecodedInstruction : (song [0xF7, 0x32]).cmds = [.tick] ∧
    (song [0xF7, 0x32]).status = .ready ∧ (song [0xF7, 0x32]).bufWritten = false ∧
    (beginTrack 0 { song [0xF7, 0x32] with cmds := [] }).track.ready = true ∧
    decode (fetch (beginTrack 0 { song [0xF7, 0x32] with cmds := [] })) = .ok (.setvol 50, []) := by decide
theorem witness_TickWithoutSequenceDoesNothing : ({ State.reset with cmds := [.tick] } : State).cmds = [.tick] ∧
    ({ State.reset with cmds := [.tick] } : State).status ≠ .ready := by decide
theorem witness_TickReportsPlayingTracks : (song [0x68, 0x0A]).status = .ready ∧
    ∃ s, tick (song [0x68, 0x0A]) = .next s ∧ s.playing = true :=
  ⟨by decide, exists_of_afterS (p := fun s => s.playing) (by decide)⟩
theorem witness_DispatchLoopDrains : ∃ s, dispatchLoop (begun [0xF7, 0x32]).track.avail (begun [0xF7, 0x32]) = .next s ∧
    decide (s.track.cur = s.track.endOff) = true :=
  exists_of_afterS (p := fun s => decide (s.track.cur = s.track.endOff)) (by decide)
theorem witness_TickKeepsHeaderFields : ∃ s, tick (song [0x68, 0x0A]) = .next s ∧ decide (s.out.length = 1) = true :=
  exists_of_afterS (p := fun s => decide (s.out.length = 1)) (by decide)

/-- Track 0 halted. -/
def halted : State := song [0x68] |>.setTrack { (song [0x68]).track with halt := true, fault := .truncatedStream }

theorem witness_HaltedTrackNeverRunsAgain : halted.tracks[0].halt = true ∧ halted.status = .ready ∧
    (∃ s, runCommand .tick halted = .next s ∧ s.tracks[0].halt = true) ∧ (∀ len, Command.tick ≠ .init len) ∧
    Command.tick ≠ .reset :=
  ⟨by decide, by decide, exists_of_afterS (p := fun s => s.tracks[0].halt) (by decide), by simp, by simp⟩
/-- The other clause: a status read, and a TICK while S.STATUS is not READY. -/
theorem witness_HaltedTrackNeverRunsAgain_idle : (∃ s, runCommand .readStatus halted = .next s ∧ s.tracks[0].halt = true) ∧
    (∀ len, Command.readStatus ≠ .init len) ∧ Command.readStatus ≠ .reset ∧ Command.readStatus ≠ .tick ∧
    (∃ s, runCommand .tick { halted with status := .malformed } = .next s ∧ s.tracks[0].halt = true) :=
  ⟨exists_of_afterS (p := fun s => s.tracks[0].halt) (by decide), by simp, by simp, by simp,
    exists_of_afterS (p := fun s => s.tracks[0].halt) (by decide)⟩
/-- Vector 7.8, from the state after INIT. -/
theorem witness_ArpSpeedZeroTickStillPlays : (song [0xFF, 0x00, 0xDF, 0x04, 0x28, 0x2C]).status = .ready ∧
    (∃ s, tick (song [0xFF, 0x00, 0xDF, 0x04, 0x28, 0x2C]) = .next s ∧ s.playing = true) ∧
    ∃ s2, LoopLeaves 0 (song [0xFF, 0x00, 0xDF, 0x04, 0x28, 0x2C]) s2 ∧
      decide (s2.track.halt = false ∧ s2.track.etl ≠ 0 ∧ s2.track.arpon = true ∧ s2.track.arpspd = 0) = true :=
  ⟨by decide, exists_of_afterS (p := fun s => s.playing) (by decide), exists_leaves (by decide)
    (p := fun s2 => decide (s2.track.halt = false ∧ s2.track.etl ≠ 0 ∧ s2.track.arpon = true ∧ s2.track.arpspd = 0))
    (by decide)⟩
theorem witness_TickEmitsInTrackOrder : ∃ s, tick (song [0x68, 0x00, 0x6D, 0x03]) = .next s ∧
    decide (s.out.length = 2) = true :=
  exists_of_afterS (p := fun s => decide (s.out.length = 2)) (by decide)
/-- The same track 0, beside another track 1, in a buffer longer by one byte that differs outside the stream of track 0. -/
def beside : State := { song [0x68, 0x0A] with
  mem := (song [0x68, 0x0A]).mem.write 6 0x55, buflen := 7
  tracks := (song [0x68, 0x0A]).tracks.set 1 { Track.reset with vol := 7 } }
theorem witness_TracksDoNotInteract : (song [0x68, 0x0A]).tracks[0].Inv (song [0x68, 0x0A]).buflen ∧
    beside.tracks[0].Inv beside.buflen ∧ (song [0x68, 0x0A]).tracks[0] = beside.tracks[0] ∧
    (song [0x68, 0x0A]).rom = beside.rom ∧ 4 ≤ (song [0x68, 0x0A]).tracks[0].cur.toNat ∧
    ((song [0x68, 0x0A]).tracks[0].arpon = true → 4 ≤ (song [0x68, 0x0A]).tracks[0].arpptr.toNat) ∧
    (∀ a, 4 ≤ a → a < (song [0x68, 0x0A]).tracks[0].endOff.toNat →
      (song [0x68, 0x0A]).mem.read a = beside.mem.read a) ∧
    ∃ s, processTrack 0 (song [0x68, 0x0A]) = .next s ∧ decide (s.out.length = 1) = true :=
  ⟨by simp only [Track.inv_iff]; decide, by simp only [Track.inv_iff]; decide, by decide, by decide, by decide,
    by decide, fun a h1 h2 => by
      have : a = 4 ∨ a = 5 := by
        have h3 : (song [0x68, 0x0A]).tracks[0].endOff.toNat = 6 := by decide
        omega
      rcases this with rfl | rfl <;> decide,
    exists_of_afterS (p := fun s => decide (s.out.length = 1)) (by decide)⟩

/-- The song of one rest meets the invariant. -/
theorem song_inv : Inv (song [0x03]) := by simp only [inv_iff, Track.inv_iff]; decide
theorem song_duties : HostKeepsDuties (song [0x03]) := by unfold HostKeepsDuties; decide
theorem song_order : StreamsInOrder (song [0x03]) := by unfold StreamsInOrder; decide
/-- The rest has 2 of its 3 ticks left. -/
def rest : State := { song [0x03] with tracks := (song [0x03]).tracks.set 0 { (song [0x03]).tracks[0] with
  cur := 5, etl := 2, elap := 1 } }
theorem witness_TickEmissionIsBounded : Inv (song [0x03]) ∧ StreamsInOrder (song [0x03]) ∧
    (∃ s, tick (song [0x03]) = .next s ∧ s.playing = true) ∧
    ∃ s, processTrack 0 (song [0x03]) = .next s ∧ s.tracks[0].play = true :=
  ⟨song_inv, song_order, exists_of_afterS (p := fun s => s.playing) (by decide),
    exists_of_afterS (p := fun s => s.tracks[0].play) (by decide)⟩
theorem witness_EndOfPlaybackIsFinal : (song [0xF7, 0x32]).status = .ready ∧
    ∃ s, tick (song [0xF7, 0x32]) = .next s ∧ (!s.playing) = true :=
  ⟨by decide, exists_of_afterS (p := fun s => !s.playing) (by decide)⟩
theorem witness_EventLastsItsTicks : Inv rest ∧ HostKeepsDuties rest ∧ rest.status = .ready ∧
    rest.tracks[0].halt = false ∧ rest.tracks[0].arpon = false ∧ 2 ≤ rest.tracks[0].etl.toNat :=
  ⟨by simp only [inv_iff, Track.inv_iff]; decide, by unfold HostKeepsDuties; decide, by decide⟩
/-- The arpeggio of `DF 04 28 2C` at speed 2 after its first TICK. -/
def arpRunning : State := { song [0xDF, 0x04, 0x28, 0x2C] with
  tracks := (song [0xDF, 0x04, 0x28, 0x2C]).tracks.set 0 { (song [0xDF, 0x04, 0x28, 0x2C]).tracks[0] with
    cur := 8, arpptr := 6, arpon := true, last := 2, etl := 3, elap := 1, arpspd := 2 } }
theorem witness_ArpeggioFollowsItsSchedule : Inv arpRunning ∧ HostKeepsDuties arpRunning ∧ arpRunning.status = .ready ∧
    arpRunning.tracks[0].halt = false ∧ arpRunning.tracks[0].arpon = true ∧ arpRunning.tracks[0].arpspd ≠ 0 ∧
    (∀ j, j < arpRunning.tracks[0].last.toNat → ∃ p, arpRunning.mem.read (arpRunning.tracks[0].arpptr.toNat + j) = some p ∧
      freq arpRunning.rom p = some (if j = 0 then 277 else 349)) ∧ 3 ≤ arpRunning.tracks[0].etl.toNat :=
  ⟨by simp only [inv_iff, Track.inv_iff]; decide, by unfold HostKeepsDuties; decide, by decide, by decide, by decide,
    by decide, fun j hj => by
      have : j = 0 ∨ j = 1 := by
        have h2 : arpRunning.tracks[0].last.toNat = 2 := by decide
        omega
      rcases this with rfl | rfl
      · exact ⟨40, by decide⟩
      · exact ⟨44, by decide⟩, by decide⟩
/-- The worked example of 45_arpeggio.md R158, from the state after INIT. -/
def arpSong : State := song [0xFF, 0x02, 0xE0, 0x08, 0x28, 0x2C, 0x2F]
theorem witness_ArpeggioFollowsItsSchedule_start : Inv arpSong ∧ HostKeepsDuties arpSong ∧ arpSong.status = .ready ∧
    (∃ s2, LoopLeaves 0 arpSong s2 ∧ decide (s2.track.halt = false ∧ s2.track.arpon = true ∧ s2.track.arpspd ≠ 0 ∧
      s2.track.last = 3 ∧ s2.track.arpptr = 8 ∧ s2.track.etl = 8 ∧ s2.track.elap = 0) = true) ∧
    ∀ j, j < (3 : Byte).toNat → ∃ p, arpSong.mem.read ((8 : Word).toNat + j) = some p ∧
      freq arpSong.rom p = some (if j = 0 then 277 else if j = 1 then 349 else 415) :=
  ⟨by simp only [inv_iff, Track.inv_iff]; decide, by unfold HostKeepsDuties; decide, by decide,
    exists_leaves (by decide) (p := fun s2 => decide (s2.track.halt = false ∧ s2.track.arpon = true ∧
      s2.track.arpspd ≠ 0 ∧ s2.track.last = 3 ∧ s2.track.arpptr = 8 ∧ s2.track.etl = 8 ∧ s2.track.elap = 0)) (by decide),
    fun j hj => by
      have : j = 0 ∨ j = 1 ∨ j = 2 := by
        have h3 : (3 : Byte).toNat = 3 := by decide
        omega
      rcases this with rfl | rfl | rfl
      · exact ⟨40, by decide⟩
      · exact ⟨44, by decide⟩
      · exact ⟨47, by decide⟩⟩
/-- The schedule of 45_arpeggio.md R158, whole and from its second TICK on. -/
theorem test_retriggers :
    ((retriggers 0 (fun j => if j = 0 then 277 else if j = 1 then 349 else 415)
      { Track.reset with arpspd := 2, last := 3 } 0 8).map fun e => (e.freq.toNat, e.dur.toNat, e.vol.toNat)) =
      [(277, 2, 0x6464), (349, 2, 0x6464), (415, 2, 0x6464), (277, 2, 0x6464)] ∧
    ((retriggers 0 (fun j => if j = 0 then 277 else if j = 1 then 349 else 415)
      { Track.reset with arpspd := 2, last := 3 } 1 7).map fun e => e.freq.toNat) = [349, 415, 277] := by decide
theorem witness_TickCompletesUnderTheHostsDuties : Inv (song [0x03]) ∧ HostKeepsDuties (song [0x03]) :=
  ⟨song_inv, song_duties⟩

/-- A song of four tracks, one of them empty and with flags bits 7..4 set. -/
def four : List (Byte × List Byte) := [(0x00, [0x68, 0x03]), (0xF5, []), (0x02, [0xDF, 0x02, 0x28, 0x2C]), (0x0B, [0x02])]
/-- Its bytes placed, an INIT of `len` bytes next, and nothing else done since reset. -/
def placed (len : Word) : State := { State.reset with mem := Memory.writeAll [] 0 (songBytes four), cmds := [.init len] }
theorem witness_InitAcceptsEverySong : (placed 20).cmds = [.init 20] ∧ four.length ≤ 4 ∧
    (∀ t ∈ four, t.2.length ≤ 65534) ∧ (songBytes four).length ≤ (20 : Word).toNat ∧
    Placed (placed 20).mem (songBytes four) (songBytes four).length := by
  unfold Placed; decide
theorem witness_InitRefusesASongCutShort : (placed 19).cmds = [.init 19] ∧ four.length ≤ 4 ∧
    (∀ t ∈ four, t.2.length ≤ 65534) ∧ (19 : Word).toNat < (songBytes four).length ∧
    Placed (placed 19).mem (songBytes four) (19 : Word).toNat := by
  unfold Placed; decide
theorem witness_RefusedInitKeepsNoTrack : (placed 19).cmds = [.init 19] ∧
    (∃ s, step (placed 19) = .next s ∧ decide (s.status ≠ .ready) = true) ∧
    (∃ n : Byte, ({ placed 19 with mem := [(0, 5)] } : State).mem.read 0 = some n ∧ 4 < n.toNat) :=
  ⟨by decide, exists_of_afterS (p := fun s => decide (s.status ≠ .ready)) (by decide), 5, by decide⟩
/-- Vector 10.6, and a stream size of 0 in the fourth header. -/
theorem witness_RefusedInitKeepsNoTrack_size : (placed 20).cmds = [.init 20] ∧
    ([] : List (Byte × List Byte)).length < (1 : Byte).toNat ∧
    (four.take 3).length < (4 : Byte).toNat ∧ (4 : Byte).toNat ≤ 4 ∧ (∀ t ∈ four.take 3, t.2.length ≤ 65534) ∧
    (tracksBytes (four.take 3)).length + 3 ≤ (20 : Word).toNat ∧
    Placed (Memory.writeAll [] 0 (4 :: tracksBytes (four.take 3) ++ [0, 0])) (4 :: tracksBytes (four.take 3) ++ [0, 0])
      ((tracksBytes (four.take 3)).length + 3) := by
  unfold Placed; decide
theorem witness_ResetGivesTheResetValues : ({ song [0x03] with cmds := [.reset] } : State).cmds = [.reset] := by decide
theorem witness_StatusReadReturnsTheView : ({ song [0x03] with cmds := [.readStatus] } : State).cmds = [.readStatus] := by
  decide
theorem witness_BlockNeverWritesTheBuffer : (∀ a b, Command.tick ≠ .place a b) ∧
    (∃ s, runCommand .tick (song [0x03]) = .next s ∧ s.playing = true) ∧
    ∃ s, exec (.seg 1) (begun [0x98]) = .next s ∧ decide (s.track.segp = 1) = true :=
  ⟨by simp, exists_of_afterS (p := fun s => s.playing) (by decide),
    exists_of_afterS (p := fun s => decide (s.track.segp = 1)) (by decide)⟩
theorem witness_OnlyNotesAndRetriggersEmit : Command.readStatus ≠ .tick ∧ Command.readStatus ≠ .reset ∧
    (∃ s, runCommand .readStatus (song [0x03]) = .next s ∧ decide (s.replies.length = 1) = true) ∧
    (∀ p l, Instr.seg 1 ≠ .note p l) ∧ (∃ s, exec (.seg 1) (begun [0x98]) = .next s ∧ decide (s.track.segp = 1) = true) ∧
    ∃ s, arpStep (arpeggio 2 2 44) = .next s ∧ decide (s.out.length = 1) = true :=
  ⟨by simp, by simp, exists_of_afterS (p := fun s => decide (s.replies.length = 1)) (by decide), by simp,
    exists_of_afterS (p := fun s => decide (s.track.segp = 1)) (by decide),
    exists_of_afterS (p := fun s => decide (s.out.length = 1)) (by decide)⟩
/-- The last offset below BUFLEN. -/
theorem witness_TickAfterBufferWriteStops :
    ({ song [0x03] with cmds := [.place 4 0x68, .tick] } : State).cmds = [.place 4 0x68, .tick] ∧
    ({ song [0x03] with cmds := [.place 4 0x68, .tick] } : State).status = .ready ∧
    (4 : Word).toNat < ({ song [0x03] with cmds := [.place 4 0x68, .tick] } : State).buflen.toNat := by decide
theorem witness_EveryStepKeepsTheInvariant : Inv (song [0x03]) ∧ ∃ s, step (song [0x03]) = .next s ∧ s.playing = true :=
  ⟨song_inv, exists_of_afterS (p := fun s => s.playing) (by decide)⟩
/-- Two tracks, the second with a running arpeggio. -/
def twoTracks : State := { song [0xDF, 0x04, 0x28, 0x2C] with
  ntrk := 2
  tracks := ((song [0xDF, 0x04, 0x28, 0x2C]).tracks.set 0 { Track.reset with cur := 4, endOff := 4 }).set 1
    { Track.reset with cur := 8, endOff := 8, arpptr := 6, arpon := true, last := 2, etl := 4 } }
theorem witness_StreamsStayInOrder : Inv twoTracks ∧ StreamsApart twoTracks ∧ StreamsInOrder twoTracks ∧
    ∃ s, step twoTracks = .next s ∧ s.playing = true :=
  ⟨by simp only [inv_iff, Track.inv_iff]; decide, by unfold StreamsApart StreamsInOrder; decide,
    by unfold StreamsInOrder; decide, exists_of_afterS (p := fun s => s.playing) (by decide)⟩
/-- The last offset below BUFLEN, and the first at it. -/
theorem witness_PlacingWritesOneByte : ({ song [0x03] with cmds := [.place 4 7] } : State).cmds = [.place 4 7] ∧
    (4 : Word).toNat < (song [0x03]).buflen.toNat ∧ (song [0x03]).status = .ready ∧
    ({ song [0x03] with cmds := [.place 5 7] } : State).cmds = [.place 5 7] ∧
    ¬ (5 : Word).toNat < (song [0x03]).buflen.toNat := by decide

end Sys2Proof.Tests
end

section
/-! PROOFS. The block never writes the buffer (20_memory.md R61). INIT writes registers and contexts only, a TICK stays
within its tracks, and so does every instruction. -/
namespace Sys2Proof.Machine

@[simp] theorem beginInit_mem (len : Word) (s : State) : (beginInit len s).mem = s.mem := rfl
@[simp] theorem refuseInit_mem (s : State) : (refuseInit s).mem = s.mem := rfl
@[simp] theorem acceptInit_mem (n : Byte) (ts : Vector Track numTracks) (s : State) : (acceptInit n ts s).mem = s.mem := rfl
@[simp] theorem resetBlock_mem (s : State) : (resetBlock s).mem = s.mem := rfl
@[simp] theorem readStatus_mem (s : State) : (readStatus s).mem = s.mem := rfl
@[simp] theorem endTick_mem (s : State) : (endTick s).mem = s.mem := rfl

/-- Everything an INIT can answer, other than a stop: it refuses the header, or accepts a count of at most four whose
headers all parse (41_init_parser.md R102, R108, R109). -/
theorem initCommand_cases {len : Word} {s s' : State} (h : initCommand len s = .next s') :
    s' = refuseInit (beginInit len s) ∨
    len ≠ 0 ∧ ∃ n ts, memRead (beginInit len s) 0 = .ok n ∧ n.toNat ≤ maxTrackCount ∧
      parseHeaders (beginInit len s) n.toNat 0 1 (beginInit len s).tracks = .accepted ts ∧
      s' = acceptInit n ts (beginInit len s) := by
  simp only [initCommand] at h
  split at h
  case isTrue => cases h; exact .inl rfl
  case isFalse hlen =>
    split at h
    case h_1 => cases h
    case h_2 n hn =>
      split at h
      case isTrue => cases h; exact .inl rfl
      case isFalse hcount =>
        split at h
        case h_1 ts hts => cases h; exact .inr ⟨hlen, n, ts, hn, Nat.not_lt.1 hcount, hts, rfl⟩
        case h_2 => cases h; exact .inl rfl
        case h_3 => cases h

theorem initCommand_mem {len : Word} {s s' : State} (h : initCommand len s = .next s') : s'.mem = s.mem := by
  rcases initCommand_cases h with rfl | ⟨-, n, ts, -, -, -, rfl⟩ <;> simp

theorem processTrack_mem {i : Fin numTracks} {s s' : State} (h : processTrack i s = .next s') : s'.mem = s.mem :=
  (processTrack_within h).1.mem

theorem processTracks_mem (l : List (Fin numTracks)) {s s' : State} (h : processTracks l s = .next s') :
    s'.mem = s.mem := by
  induction l generalizing s with
  | nil => cases h; rfl
  | cons i rest ih =>
    obtain ⟨s1, hfirst, hrest⟩ := andThen_eq_next.1 h
    exact (ih hrest).trans (processTrack_mem hfirst)

theorem tick_mem {s s' : State} (h : tick s = .next s') : s'.mem = s.mem := by
  rcases tick_cases h with ⟨-, rfl⟩ | ⟨-, -, t, ht, rfl⟩
  · rfl
  · rw [endTick_mem, processTracks_mem _ ht]

/-- No command but the host's placing of a byte writes the buffer. -/
theorem runCommand_mem {c : Command} {s s' : State} (hc : ∀ a b, c ≠ .place a b) (h : runCommand c s = .next s') :
    s'.mem = s.mem := by
  cases c with
  | reset => cases h; exact resetBlock_mem s
  | place a b => exact absurd rfl (hc a b)
  | init len => exact initCommand_mem h
  | tick => exact tick_mem h
  | readStatus => cases h; exact readStatus_mem s

/-- No instruction writes the buffer: there is no store instruction. -/
theorem exec_mem {i : Instr} {s s' : State} (h : exec i s = .next s') : s'.mem = s.mem := by
  obtain ⟨t, ht, ⟨hlocal, -⟩, -⟩ := exec_effect i s
  cases ht.symm.trans h
  exact hlocal.mem

/-- Settles O46: the buffer itself is kept, so each of its bytes is. -/
theorem blockNeverWritesTheBuffer : Obligations.BlockNeverWritesTheBuffer := by
  unfold Obligations.BlockNeverWritesTheBuffer
  constructor
  · intro s s' c hc h x
    rw [runCommand_mem hc h]
  · intro i s s' h x
    rw [exec_mem h]

end Sys2Proof.Machine
end

section
/-! PROOFS. The variable-length field in numbers (30_encoding.md R78): one equation of `decodeLen` for each value of the
first byte's high bit, and the value of the field it reads. -/
namespace Sys2Proof
open Machine

/-- A first byte below 128 is the whole field (30_encoding.md R78). -/
theorem decodeLen_short (op : Byte) {v0 : Byte} (h : v0.toNat < 128) (rest : List Byte) :
    decodeLen op (v0 :: rest) = .ok (.v1 (v0.setWidth 7), rest) := by
  have hmsb : v0.msb = false := BitVec.msb_eq_false_iff_two_mul_lt.2 (by omega)
  simp [decodeLen, hmsb]

/-- A first byte from 128 on takes the next byte into the field (30_encoding.md R78). -/
theorem decodeLen_long (op : Byte) {v0 : Byte} (h : 128 ≤ v0.toNat) (v1 : Byte) (rest : List Byte) :
    decodeLen op (v0 :: v1 :: rest) = .ok (.v2 (v0.setWidth 7 ++ v1), rest) := by
  have hmsb : v0.msb = true := BitVec.msb_eq_true_iff_two_mul_ge.2 (by omega)
  simp [decodeLen, hmsb]

theorem shortField_value_toNat {v0 : Byte} (h : v0.toNat < 128) :
    (LenField.v1 (v0.setWidth 7)).value.toNat = v0.toNat := by
  simp only [LenField.value, BitVec.toNat_setWidth]
  omega

/-- The value is big-endian: the first byte without its high bit is the high byte (30_encoding.md R78). -/
theorem longField_value_toNat {v0 : Byte} (h : 128 ≤ v0.toNat) (v1 : Byte) :
    (LenField.v2 (v0.setWidth 7 ++ v1)).value.toNat = (v0.toNat - 128) * 256 + v1.toNat := by
  simp only [LenField.value, BitVec.toNat_setWidth, longFieldValue_toNat]
  have hv0 := v0.isLt
  have hv1 := v1.isLt
  omega

/-- Settles O6: the first byte's high bit selects the form of the field, and the form its value and size. -/
theorem lengthFieldValue : Obligations.LengthFieldValue := by
  unfold Obligations.LengthFieldValue
  intro op v0 rest
  constructor
  · intro hshort
    exact ⟨_, decodeLen_short op hshort rest, shortField_value_toNat hshort, rfl⟩
  · intro hlong v1
    exact ⟨_, decodeLen_long op hlong v1 rest, longField_value_toNat hlong v1, rfl⟩

end Sys2Proof
end

section
/-! PROOFS. The frequency lookup where it answers (40_codec_frequency.md R96): its value is the shifted table entry, and the
shift is a division that truncates. -/
namespace Sys2Proof.Machine

/-- With `freq_eq_none`, all that the lookup can answer. -/
theorem freq_eq_some (rom : Vector Half 12) {n : Byte} (h : n.toNat < 132) :
    freq rom n = some (rom[n.toNat % 12]'(Nat.mod_lt _ (by decide)) >>> (10 - n.toNat / 12)) := if_pos h

/-- Settles O22: up to 131 the lookup answers, and its shift in bits is the division in numbers. -/
theorem frequencyIsTheShiftedTableEntry : Obligations.FrequencyIsTheShiftedTableEntry := by
  unfold Obligations.FrequencyIsTheShiftedTableEntry
  intro rom n hn
  refine ⟨_, freq_eq_some rom (Nat.lt_succ_of_le hn), ?_, rfl⟩
  rw [BitVec.toNat_ushiftRight, Nat.shiftRight_eq_div_pow]

end Sys2Proof.Machine
end

section
/-! PROOFS. TICK's result and the PLAY bits (42_tick_dispatcher.md R123). The statement speaks of each track's dispatch loop
from the state in which the TICK starts, and the model runs it from what the earlier tracks left. The two loops run alike, for
a loop depends on its track's context, the buffer and the ROM alone, and no earlier track writes any of these. -/
namespace Sys2Proof.Machine

/-- Two states in which the track being processed has the same context, the same buffer and the same ROM: all that its
dispatch loop depends on. The output, the other tracks and the block's remaining registers may differ. -/
structure SameView (s t : State) : Prop where
  track : t.track = s.track
  mem : t.mem = s.mem
  buflen : t.buflen = s.buflen
  rom : t.rom = s.rom

/-- Where `o` is a next state, `p` is one too, with the same view. -/
def Follows (o p : Host.Outcome State Fault Refusal) : Prop :=
  ∀ s', o = .next s' → ∃ t', p = .next t' ∧ SameView s' t'

section SameView
variable {s t : State}

theorem SameView.symm (h : SameView s t) : SameView t s := ⟨h.track.symm, h.mem.symm, h.buflen.symm, h.rom.symm⟩

theorem SameView.setTrack (h : SameView s t) {a b : Track} (e : b = a) : SameView (s.setTrack a) (t.setTrack b) :=
  ⟨by simpa using e, h.mem, h.buflen, h.rom⟩

/-- What the two states emit does not matter. -/
theorem SameView.emit (h : SameView s t) (f d v fl f' d' v' fl' : Word) :
    SameView (s.emit f d v fl) (t.emit f' d' v' fl') :=
  ⟨h.track, h.mem, h.buflen, h.rom⟩

theorem SameView.emitPlain (h : SameView s t) (f : Half) (len guard : Nat) :
    SameView (emitPlain f len guard s) (emitPlain f len guard t) := h.emit ..

theorem SameView.emitSlide (h : SameView s t) (f0 f1 : Half) (len : Nat) :
    SameView (emitSlide f0 f1 len s) (emitSlide f0 f1 len t) := h.emit ..

theorem SameView.raiseFault (h : SameView s t) (c : TrackFault) : SameView (raiseFault c s) (raiseFault c t) :=
  h.setTrack (by rw [h.track])

theorem SameView.startNote (h : SameView s t) (pitch : Byte) (l : LenField) :
    SameView (startNote pitch l s) (startNote pitch l t) := h.setTrack (by rw [h.track])

theorem SameView.plainNote (h : SameView s t) (pitch : Byte) (l : LenField) :
    SameView (plainNote pitch l s) (plainNote pitch l t) := by
  unfold Machine.plainNote
  rw [h.rom, h.track]
  split
  · next f _ =>
    split
    · exact (h.emitPlain ..).startNote ..
    · have htone := h.emitPlain f l.value.toNat 2
      exact (htone.setTrack (by rw [htone.track])).startNote ..
  · exact h.raiseFault _

theorem SameView.slideNote (h : SameView s t) (pitch : Byte) (l : LenField) :
    SameView (slideNote pitch l s) (slideNote pitch l t) := by
  unfold Machine.slideNote
  rw [h.rom, h.track]
  split
  · next f0 f1 _ _ =>
    have htone := h.emitSlide f0 f1 l.value.toNat
    exact (htone.setTrack (by rw [htone.track])).startNote ..
  · exact h.raiseFault _

theorem SameView.noteEffect (h : SameView s t) (pitch : Byte) (l : LenField) :
    SameView (noteEffect pitch l s) (noteEffect pitch l t) := by
  unfold Machine.noteEffect
  rw [h.track]
  split
  · exact h.plainNote ..
  · exact h.slideNote ..

theorem SameView.fetch_eq (h : SameView s t) : fetch t = fetch s := by
  rw [fetch, fetch, h.track, readBytes_congr h.mem h.buflen]

theorem SameView.follows (h : SameView s t) : Follows (.next s) (.next t) := by
  rintro _ ⟨⟩
  exact ⟨t, rfl, h⟩

theorem Follows.andThen {o p : Host.Outcome State Fault Refusal} {k : State → Host.Outcome State Fault Refusal}
    (h : Follows o p) (hk : ∀ {s1 t1}, SameView s1 t1 → Follows (k s1) (k t1)) : Follows (andThen o k) (andThen p k) := by
  intro s' hs
  obtain ⟨s1, ho, hs1⟩ := andThen_eq_next.1 hs
  obtain ⟨t1, hp, hview⟩ := h s1 ho
  rw [hp]
  exact hk hview s' hs1

theorem SameView.withBytes (h : SameView s t) {n : Nat} {f : State → State} (hf : SameView (f s) (f t)) :
    Follows (withBytes n f s) (withBytes n f t) := by
  unfold Machine.withBytes
  rw [h.track]
  split
  · exact hf.follows
  · exact (h.raiseFault _).follows

theorem SameView.exec (h : SameView s t) (i : Instr) : Follows (exec i s) (exec i t) := by
  cases i with
  | note p l => exact h.withBytes (h.noteEffect p l)
  | swait | seg | setpan => exact SameView.follows (h.setTrack (by rw [h.track]))
  | _ => exact h.withBytes (h.setTrack (by rw [h.track]))

theorem SameView.undecoded (h : SameView s t) (e : DecodeError) : Follows (undecoded e s) (undecoded e t) := by
  have hcut := (h.raiseFault .truncatedStream).follows
  unfold Machine.undecoded
  rw [h.fetch_eq, h.track, memRead_congr h.mem h.buflen]
  cases e with
  | unknownOpcode => exact SameView.follows (h.setTrack (by rw [h.track]))
  | noByte | truncated =>
    dsimp only
    split
    · split
      · rintro _ ⟨⟩
      · exact hcut
    · exact hcut

theorem SameView.executeOne (h : SameView s t) : Follows (executeOne s) (executeOne t) := by
  unfold Machine.executeOne
  rw [h.fetch_eq]
  split
  · exact h.exec _
  · exact h.undecoded _

theorem SameView.dispatchLoop (n : Nat) : ∀ {s t : State}, SameView s t → Follows (dispatchLoop n s) (dispatchLoop n t) := by
  induction n with
  | zero => exact fun h => h.follows
  | succ n ih =>
    intro s t h
    simp only [Machine.dispatchLoop, h.track]
    split
    · exact h.executeOne.andThen ih
    · exact h.follows

end SameView

section tracks
variable {i : Fin numTracks} {s s' t : State}

theorem beginTrack_sameView (htrack : t.tracks[i] = s.tracks[i]) (hmem : t.mem = s.mem) (hlen : t.buflen = s.buflen)
    (hrom : t.rom = s.rom) : SameView (beginTrack i s) (beginTrack i t) :=
  ⟨by simp only [beginTrack_track, htrack], hmem, hlen, hrom⟩

theorem EventStepRuns.of_sameView (h : SameView (beginTrack i s) (beginTrack i t)) (hrun : EventStepRuns i s) :
    EventStepRuns i t := by
  obtain ⟨s2, ⟨hhalt, hloop⟩, hhalt2, hetl2⟩ := hrun
  obtain ⟨t2, hloop', hview⟩ := h.dispatchLoop _ s2 hloop
  have hbegun := congrArg Track.halt h.track
  simp only [beginTrack_track] at hbegun
  rw [← h.track] at hloop'
  refine ⟨t2, ⟨hbegun.trans hhalt, hloop'⟩, ?_, ?_⟩ <;> rwa [hview.track]

/-- Whether a track's event step runs depends on its context, the buffer and the ROM alone. -/
theorem eventStepRuns_congr (h : SameView (beginTrack i s) (beginTrack i t)) : EventStepRuns i t ↔ EventStepRuns i s :=
  ⟨.of_sameView h.symm, .of_sameView h⟩

/-- PLAY, cleared before, is set exactly where the event step runs (42_tick_dispatcher.md R120, R121). -/
theorem eventStep_play (hplay : s.track.play = false) (h : eventStep s = .next s') :
    s'.track.play = true ↔ s.track.halt = false ∧ s.track.etl ≠ 0 := by
  rcases eventStep_cases h with ⟨hidle, rfl⟩ | ⟨hhalt, hetl, ⟨c, -, rfl⟩ | rfl | ⟨f, rfl⟩⟩
  · rcases hidle with hhalt | hetl
    · simp [hplay, hhalt]
    · simp [hplay, hetl]
  · exact iff_of_true (by simp) ⟨hhalt, hetl⟩
  · exact iff_of_true (by simp [countTick]) ⟨hhalt, hetl⟩
  · exact iff_of_true (by simp [countTick, emitPlain_eq]) ⟨hhalt, hetl⟩

/-- Everything the processing of one track can do: skip a halted track, or run its loop, then its event step
(42_tick_dispatcher.md R114, R115, R120). -/
theorem processTrack_cases (h : processTrack i s = .next s') :
    (s.tracks[i].halt = true ∧ s' = beginTrack i s) ∨ ∃ s2, LoopLeaves i s s2 ∧ eventStep s2 = .next s' := by
  by_cases hhalt : s.tracks[i].halt = true
  · rw [processTrack_of_halted hhalt] at h
    cases h
    exact .inl ⟨hhalt, rfl⟩
  · simp only [processTrack, beginTrack_track, if_neg hhalt] at h
    obtain ⟨s2, hloop, hstep⟩ := andThen_eq_next.1 h
    exact .inr ⟨s2, ⟨Bool.eq_false_iff.2 hhalt, by simpa using hloop⟩, hstep⟩

theorem LoopLeaves.unique {s2 s3 : State} (h2 : LoopLeaves i s s2) (h3 : LoopLeaves i s s3) : s3 = s2 := by
  cases h2.2.symm.trans h3.2
  rfl

/-- The track processed is the one left as the track being processed. -/
theorem processTrack_track (h : processTrack i s = .next s') : s'.tracks[i] = s'.track := by
  obtain rfl : s'.act = i := (processTrack_within h).1.same.act
  rfl

/-- After its processing, a track's PLAY says whether its event step ran (42_tick_dispatcher.md R114, R121). -/
theorem processTrack_play (h : processTrack i s = .next s') : s'.tracks[i].play = true ↔ EventStepRuns i s := by
  rw [processTrack_track h]
  rcases processTrack_cases h with ⟨hhalt, rfl⟩ | ⟨s2, hleaves, hstep⟩
  · have hnot : ¬ EventStepRuns i s := by
      rintro ⟨s2, ⟨hrunning, -⟩, -⟩
      cases hhalt.symm.trans hrunning
    simp [hnot]
  · have hplay : s2.track.play = false := by
      obtain ⟨-, hkept, -⟩ := dispatchLoop_cases _ hleaves.2
      simpa using hkept
    rw [eventStep_play hplay hstep]
    constructor
    · exact fun hrun => ⟨s2, hleaves, hrun⟩
    · rintro ⟨s3, hleaves3, hrun⟩
      rwa [hleaves.unique hleaves3] at hrun

/-- The processing of a track leaves the other tracks' contexts alone. -/
theorem processTrack_other {j : Fin numTracks} (hj : j ≠ i) (h : processTrack i s = .next s') :
    s'.tracks[j] = s.tracks[j] :=
  ((processTrack_within h).1.same.others j hj).trans (beginTrack_other i s j hj)

/-- The processing of a track does not change whether another track's event step runs. -/
theorem eventStepRuns_after_processTrack {j : Fin numTracks} (hj : j ≠ i) (h : processTrack i s = .next s') :
    EventStepRuns j s' ↔ EventStepRuns j s := by
  have hsame := (processTrack_within h).1.same
  exact eventStepRuns_congr
    (beginTrack_sameView (processTrack_other hj h) (processTrack_mem h) hsame.buflen hsame.rom)

end tracks

theorem processTracks_other {j : Fin numTracks} (l : List (Fin numTracks)) :
    ∀ {s s' : State}, j ∉ l → processTracks l s = .next s' → s'.tracks[j] = s.tracks[j] := by
  induction l with
  | nil => rintro s s' - ⟨⟩; rfl
  | cons i rest ih =>
    intro s s' hj h
    obtain ⟨hji, hrest⟩ := not_or.1 (mt List.mem_cons.2 hj)
    obtain ⟨s1, hfirst, hothers⟩ := andThen_eq_next.1 h
    exact (ih hrest hothers).trans (processTrack_other hji hfirst)

/-- Each track processed once, its PLAY afterwards says whether its event step runs from the state before all of them. -/
theorem processTracks_play {j : Fin numTracks} (l : List (Fin numTracks)) :
    ∀ {s s' : State}, l.Nodup → j ∈ l → processTracks l s = .next s' →
      (s'.tracks[j].play = true ↔ EventStepRuns j s) := by
  induction l with
  | nil => intro s s' _ hj; cases hj
  | cons i rest ih =>
    intro s s' hl hj h
    obtain ⟨hi, hrest⟩ := List.nodup_cons.1 hl
    obtain ⟨s1, hfirst, hothers⟩ := andThen_eq_next.1 h
    by_cases hji : j = i
    · subst hji
      rw [processTracks_other rest hi hothers]
      exact processTrack_play hfirst
    · have hmem : j ∈ rest := (List.mem_cons.1 hj).resolve_left hji
      exact (ih hrest hmem hothers).trans (eventStepRuns_after_processTrack hji hfirst)

theorem processTracks_replies (l : List (Fin numTracks)) :
    ∀ {s s' : State}, processTracks l s = .next s' → s'.replies = s.replies := by
  induction l with
  | nil => rintro s s' ⟨⟩; rfl
  | cons i rest ih =>
    intro s s' h
    obtain ⟨s1, hfirst, hothers⟩ := andThen_eq_next.1 h
    exact (ih hothers).trans (processTrack_within hfirst).1.same.replies

theorem anyPlaying_iff {s : State} : anyPlaying s = true ↔ ∃ i : Fin numTracks, s.tracks[i].play = true := by
  simp [anyPlaying, Fin.exists_fin_succ, or_assoc]

/-- Settles O29: each PLAY bit says whether its track's event step ran, and TICK's result is the disjunction of the four. -/
theorem tickReportsPlayingTracks : Obligations.TickReportsPlayingTracks := by
  unfold Obligations.TickReportsPlayingTracks
  intro s s' hready h
  rcases tick_cases h with ⟨hidle, -⟩ | ⟨-, -, t, htracks, rfl⟩
  · exact absurd hready hidle
  · have hplay : ∀ i : Fin numTracks, t.tracks[i].play = true ↔ EventStepRuns i s := fun i =>
      processTracks_play [0, 1, 2, 3] (by decide) (by revert i; decide) htracks
    refine ⟨?_, ?_, hplay⟩
    · exact anyPlaying_iff.trans (exists_congr hplay)
    · simp only [endTick, processTracks_replies _ htracks]

end Sys2Proof.Machine
end

section
/-! PROOFS. The completed NOTE (44_note_segment.md R139 to R146). A plain note and a slide have one shape: a tone, an
update of the segment counters, then the start of the note's event. -/
namespace Sys2Proof.Machine

/-- All that a tone, a write `t` of the context and the start of the note's event do (44_note_segment.md R145, R146). -/
theorem resultIs_emit_setTrack_startNote (s : State) (f d v fl : Word) (t : Track) (pitch : Byte) (l : LenField) :
    ResultIs (.next (startNote pitch l ((s.emit f d v fl).setTrack t))) s
      { t with last := pitch, etl := l.value, elap := 0, arpon := false, cur := t.advanced (1 + l.size) }
      [⟨s.act, f, d, v, fl⟩] := by
  simp only [startNote, setTrack_track, setTrack_setTrack]
  exact resultIs_emit_setTrack ..

section note
variable {s : State} {pitch : Byte} {l : LenField}

/-- With its bytes before END, a NOTE has its effect. -/
theorem exec_note_of_le (h : 1 + l.size ≤ s.track.avail) : exec (.note pitch l) s = .next (noteEffect pitch l s) :=
  withBytes_of_le h

/-- Moving a pending count of 0 into a SEGL of 0 changes nothing. -/
theorem startPending_of_none {t : Track} (hsegl : t.segl = 0) (hsegp : t.segp = 0) :
    { t with segl := t.segp, segp := 0 } = t := by
  cases t
  simp_all

/-- Outside a segment SEGP moves into SEGL whether or not a count is pending, since without one both are 0; only the
pop-guard depends on it (44_note_segment.md R142, R143). -/
theorem noteEffect_plain {f : Half} (hsegl : s.track.segl = 0) (hf : freq s.rom pitch = some f) :
    noteEffect pitch l s = startNote pitch l
      ((emitPlain f l.value.toNat (if s.track.segp = 0 then 0 else 2) s).setTrack
        { s.track with segl := s.track.segp, segp := 0 }) := by
  rw [noteEffect, if_pos hsegl, plainNote, hf]
  by_cases hsegp : s.track.segp = 0
  · simp only [if_pos hsegp, startPending_of_none hsegl hsegp]
    exact congrArg (startNote pitch l) (setTrack_self (emitPlain f l.value.toNat 0 s)).symm
  · simp only [if_neg hsegp]
    rfl

/-- Inside a segment one note fewer is left (44_note_segment.md R144). -/
theorem noteEffect_slide {f0 f1 : Half} (hsegl : s.track.segl ≠ 0) (hf0 : freq s.rom s.track.last = some f0)
    (hf1 : freq s.rom pitch = some f1) :
    noteEffect pitch l s = startNote pitch l
      ((emitSlide f0 f1 l.value.toNat s).setTrack { s.track with segl := s.track.segl - 1 }) := by
  rw [noteEffect, if_neg hsegl, slideNote, hf0, hf1]
  rfl

end note

/-- Settles O10: the plain tone, SEGP moved into SEGL, and the start of the event. -/
theorem plainNoteCompletes : Obligations.PlainNoteCompletes := by
  unfold Obligations.PlainNoteCompletes CompletesWith
  intro s pitch l f hbytes hsegl hf
  rw [exec_note_of_le hbytes, noteEffect_plain hsegl hf, emitPlain_eq]
  exact resultIs_emit_setTrack_startNote ..

/-- Settles O11: the slide, SEGL down by one, and the start of the event. -/
theorem slideNoteCompletes : Obligations.SlideNoteCompletes := by
  unfold Obligations.SlideNoteCompletes CompletesWith
  intro s pitch l f0 f1 hbytes hsegl hf0 hf1
  rw [exec_note_of_le hbytes, noteEffect_slide hsegl hf0 hf1]
  exact resultIs_emit_setTrack_startNote ..

end Sys2Proof.Machine
end

section
/-! PROOFS. The arpeggio (45_arpeggio.md R149 to R155): ARP's record of its note list in numbers, and the two faults of the
arpeggio step. Each branch that can fault has its equation; the event step keeps what a fault leaves, for the counters stand
still on a halted track. -/
namespace Sys2Proof.Machine

/-- A well-formed ARP has 2 to 25 pitches (30_encoding.md R81). -/
theorem wellFormed_arp_iff {l : LenField} {pitches : List Byte} :
    (Instr.arp l pitches).wellFormed = true ↔ 2 ≤ pitches.length ∧ pitches.length ≤ 25 := decide_eq_true_iff

/-- The note list stands between CUR after the length field and CUR after the instruction; no offset and no count wraps
(45_arpeggio.md R149 to R151). -/
theorem arpEffect_offsets {s : State} {l : LenField} {pitches : List Byte} (hcount : pitches.length ≤ 25)
    (hbytes : 1 + l.size + pitches.length ≤ s.track.avail) :
    (arpEffect l pitches s).track.last.toNat = pitches.length ∧
    (arpEffect l pitches s).track.arpptr.toNat = s.track.cur.toNat + 1 + l.size ∧
    (arpEffect l pitches s).track.cur.toNat = s.track.cur.toNat + 1 + l.size + pitches.length := by
  have hlist : 1 + l.size ≤ s.track.avail := Nat.le_of_add_right_le hbytes
  simp only [arpEffect, setTrack_track, advanced_toNat hlist, advanced_toNat hbytes, BitVec.toNat_ofNat]
  omega

/-- Settles O13: ARP is one write of its track's context, and the offsets it writes are those of its note list. -/
theorem arpStartsAnArpeggio : Obligations.ArpStartsAnArpeggio := by
  unfold Obligations.ArpStartsAnArpeggio CompletesWith
  intro s l pitches hwf hsize
  have hbytes : 1 + l.size + pitches.length ≤ s.track.avail := hsize
  obtain ⟨-, hcount⟩ := wellFormed_arp_iff.1 hwf
  obtain ⟨hlast, hptr, hcur⟩ := arpEffect_offsets hcount hbytes
  have hexec : exec (.arp l pitches) s = .next (arpEffect l pitches s) := withBytes_of_le hbytes
  refine ⟨(arpEffect l pitches s).track, ?_, ?_, hlast, hptr, ?_, ?_⟩
  · rw [hexec, arpEffect, setTrack_track]
    exact resultIs_setTrack ..
  · simp only [arpEffect, setTrack_track]
  · rw [hcur, hptr]
  · rw [hptr, hlast]
    unfold Track.avail at hbytes
    omega

section arpStep
variable {s : State} {p : Byte}

/-- The speed is looked at first, so the note list does not matter (45_arpeggio.md R154). -/
theorem arpStep_of_speed_zero (hspd : s.track.arpspd = 0) : arpStep s = .next (raiseFault .arpSpeedZero s) :=
  if_pos hspd

/-- On a tick due, the step retriggers the pitch it reads (45_arpeggio.md R153). -/
theorem arpStep_of_due (hspd : s.track.arpspd ≠ 0) (hdue : s.track.elap.toNat % s.track.arpspd.toNat = 0)
    (hlast : s.track.last ≠ 0) (hread : memRead s (s.track.arpptr.toNat + s.track.arpIndex) = .ok p) :
    arpStep s = .next (retrigger p s) := by
  simp only [arpStep, if_neg hspd, hdue, ne_eq, not_true_eq_false, if_false, if_neg hlast, hread]

/-- A pitch without a frequency is BAD_PITCH (45_arpeggio.md R155). -/
theorem retrigger_of_bad_pitch (hp : 132 ≤ p.toNat) : retrigger p s = raiseFault .badPitch s := by
  rw [retrigger, freq_eq_none.2 hp]

end arpStep

section eventStep
variable {s : State}

theorem countUnlessHalted_raiseFault (c : TrackFault) (s : State) :
    countUnlessHalted (raiseFault c s) = .next (raiseFault c s) :=
  if_pos (by rw [raiseFault_track])

/-- The event step of a running arpeggio: PLAY, the arpeggio step, then the counters (42_tick_dispatcher.md R121, R122). -/
theorem eventStep_of_arpon (hhalt : s.track.halt = false) (hetl : s.track.etl ≠ 0) (harp : s.track.arpon = true) :
    eventStep s = andThen (arpStep (markPlaying s)) countUnlessHalted := by
  have hruns : ¬ (s.track.halt || s.track.etl == 0) = true := by simpa [hhalt] using hetl
  rw [eventStep, if_neg hruns, if_pos harp]

/-- PLAY and the fault action are one write of the context. -/
theorem raiseFault_markPlaying (c : TrackFault) (s : State) :
    raiseFault c (markPlaying s) = s.setTrack { s.track with play := true, halt := true, fault := c, etl := 0 } := by
  simp only [raiseFault, markPlaying, setTrack_track, setTrack_setTrack]

/-- Where the arpeggio step of a track marked playing takes a fault, that is all that the event step does. -/
theorem eventStep_of_arpStep_fault {c : TrackFault} (hhalt : s.track.halt = false) (hetl : s.track.etl ≠ 0)
    (harp : s.track.arpon = true) (hfault : arpStep (markPlaying s) = .next (raiseFault c (markPlaying s))) :
    ResultIs (eventStep s) s { s.track with play := true, halt := true, fault := c, etl := 0 } [] := by
  rw [eventStep_of_arpon hhalt hetl harp, hfault, andThen_next, countUnlessHalted_raiseFault, raiseFault_markPlaying]
  exact resultIs_setTrack ..

end eventStep

/-- Settles O25: a speed of 0 faults before the list is read, a bad pitch after; PLAY changes neither the context's arpeggio
fields nor what is read. -/
theorem arpeggioStepFaults : Obligations.ArpeggioStepFaults := by
  unfold Obligations.ArpeggioStepFaults
  intro s hhalt hetl harp
  have htrack := markPlaying_track s
  constructor
  · intro hspd
    exact eventStep_of_arpStep_fault hhalt hetl harp (arpStep_of_speed_zero (by rwa [htrack]))
  · intro hspd hdue hlast p hp hread
    have hstep : arpStep (markPlaying s) = .next (retrigger p (markPlaying s)) := by
      apply arpStep_of_due <;> rw [htrack]
      · exact hspd
      · exact hdue
      · exact hlast
      · exact (memRead_congr rfl rfl _).trans hread
    rw [retrigger_of_bad_pitch hp] at hstep
    exact eventStep_of_arpStep_fault hhalt hetl harp hstep

end Sys2Proof.Machine
end

section
/-! PROOFS. The packed words of a tone event (47_synthesis_bridge.md R166 to R168). A word is an OR of shifted fields, and is
read in two ways: as a number, where a field that fits its word is the field's number shifted; and byte by byte, where a byte
field is itself at its own place and 0 at every place disjoint from it. -/
namespace Sys2Proof.Machine

section field
variable {k start : Nat}

/-- Shifting a field within the word drops no bit of it. -/
theorem setWidth_shiftLeft_toNat {w : Nat} (b : BitVec w) (h : w + k ≤ 32) :
    (b.setWidth 32 <<< k : Word).toNat = b.toNat <<< k := by
  have hfield : b.toNat < 2 ^ 32 := b.isLt.trans_le (Nat.pow_le_pow_right (by decide) (by omega))
  have hshifted : b.toNat <<< k < 2 ^ 32 := by
    rw [Nat.shiftLeft_eq]
    calc b.toNat * 2 ^ k < 2 ^ w * 2 ^ k := Nat.mul_lt_mul_of_pos_right b.isLt (Nat.two_pow_pos k)
      _ = 2 ^ (w + k) := (Nat.pow_add ..).symm
      _ ≤ 2 ^ 32 := Nat.pow_le_pow_right (by decide) h
  rw [BitVec.toNat_shiftLeft, BitVec.toNat_setWidth, Nat.mod_eq_of_lt hfield, Nat.mod_eq_of_lt hshifted]

/-- A byte field is found again at its own place. -/
theorem byteField_extract_same (b : Byte) (h : k + 8 ≤ 32) : (b.setWidth 32 <<< k : Word).extractLsb' k 8 = b := by
  ext i hi
  have hbit : k + i < 32 := by omega
  simp [hi, hbit]

/-- A byte field has no bit in a byte disjoint from it. -/
theorem byteField_extract_disjoint (b : Byte) (h : k + 8 ≤ start ∨ start + 8 ≤ k) :
    (b.setWidth 32 <<< k : Word).extractLsb' start 8 = 0 := by
  ext i hi
  rcases h with habove | hbelow
  · have hout : b.getLsbD (start + i - k) = false := BitVec.getLsbD_of_ge _ _ (by omega)
    simp [hout]
  · have hlow : start + i < k := by omega
    simp [hlow]

/-- A byte of a number's low word is the number divided. -/
theorem extract_ofNat (n : Nat) (h : start + 8 ≤ 32) :
    (BitVec.ofNat 32 n).extractLsb' start 8 = BitVec.ofNat 8 (n / 2 ^ start) := by
  refine BitVec.eq_of_getLsbD_eq fun i hi => ?_
  have hbit : start + i < 32 := by omega
  rw [BitVec.getLsbD_extractLsb', BitVec.getLsbD_ofNat, BitVec.getLsbD_ofNat, Nat.testBit_div_two_pow, Nat.add_comm i]
  simp only [hi, hbit, decide_true, Bool.true_and]

end field

section duration
variable (sus : Nat) (r d a : Byte)

/-- The masked packing is the unmasked one of the sustain's low byte. -/
theorem packDur_masked : packDur .masked sus r d a = packDur .unmasked (sus % 256) r d a := rfl

theorem packDur_unmasked_toNat (hsus : sus < 2 ^ 32) :
    (packDur .unmasked sus r d a).toNat =
      sus ||| (r.toNat <<< 8) ||| (d.toNat <<< 16) ||| (a.toNat <<< 24) := by
  simp only [packDur, BitVec.toNat_or, BitVec.toNat_ofNat, Nat.mod_eq_of_lt hsus]
  rw [setWidth_shiftLeft_toNat r (by decide), setWidth_shiftLeft_toNat d (by decide),
    setWidth_shiftLeft_toNat a (by decide)]

/-- Each byte is its field ORed with the sustain's bits of that byte (47_synthesis_bridge.md R169). -/
theorem packDur_unmasked_bytes :
    (packDur .unmasked sus r d a).extractLsb' 0 8 = BitVec.ofNat 8 sus ∧
    (packDur .unmasked sus r d a).extractLsb' 8 8 = BitVec.ofNat 8 (sus / 2 ^ 8) ||| r ∧
    (packDur .unmasked sus r d a).extractLsb' 16 8 = BitVec.ofNat 8 (sus / 2 ^ 16) ||| d ∧
    (packDur .unmasked sus r d a).extractLsb' 24 8 = BitVec.ofNat 8 (sus / 2 ^ 24) ||| a := by
  refine ⟨?_, ?_, ?_, ?_⟩ <;>
    simp [packDur, BitVec.extractLsb'_or, extract_ofNat, byteField_extract_same, byteField_extract_disjoint]

end duration

/-- Settles O19: a sustain of 16 bits reaches the two low bytes only, and a masked one the lowest only. -/
theorem durationWordPacksFourFields : Obligations.DurationWordPacksFourFields := by
  unfold Obligations.DurationWordPacksFourFields
  refine ⟨rfl, fun sus r d a hsus => ?_⟩
  obtain ⟨hbyte0, hbyte1, hbyte2, hbyte3⟩ := packDur_unmasked_bytes sus r d a
  obtain ⟨-, hmasked, -, -⟩ := packDur_unmasked_bytes (sus % 256) r d a
  have hno2 : sus / 2 ^ 16 = 0 := Nat.div_eq_of_lt hsus
  have hno3 : sus / 2 ^ 24 = 0 := Nat.div_eq_of_lt (hsus.trans (by decide))
  have hnone : sus % 256 / 2 ^ 8 = 0 := Nat.div_eq_of_lt (Nat.mod_lt _ (by decide))
  rw [durPack, packDur_masked, hbyte0, hbyte1, hbyte2, hbyte3, hmasked, hno2, hno3, hnone]
  exact ⟨packDur_unmasked_toNat sus r d a (hsus.trans (by decide)), BitVec.zero_or, BitVec.zero_or, BitVec.or_comm ..,
    rfl, BitVec.zero_or⟩

/-- The sustain ratio is at most 1 (47_synthesis_bridge.md R167). -/
theorem susVol_le (vol sus : Byte) : susVol vol sus ≤ vol.toNat :=
  Nat.div_le_of_le_mul (by
    rw [Nat.mul_comm 255]
    exact Nat.mul_le_mul_left _ (Nat.le_of_lt_succ sus.isLt))

/-- Full sustain keeps the volume (47_synthesis_bridge.md R167). -/
theorem susVol_full (vol : Byte) : susVol vol 255 = vol.toNat := Nat.mul_div_cancel _ (by decide)

theorem susVol_le_byte (vol sus : Byte) : susVol vol sus ≤ 255 := (susVol_le vol sus).trans (Nat.le_of_lt_succ vol.isLt)

theorem volWord_toNat (t : Track) : (volWord t).toNat = susVol t.vol t.sus ||| (t.vol.toNat <<< 8) := by
  have hsus : susVol t.vol t.sus < 2 ^ 32 := (susVol_le_byte t.vol t.sus).trans_lt (by decide)
  rw [volWord, BitVec.toNat_or, BitVec.toNat_ofNat, Nat.mod_eq_of_lt hsus, setWidth_shiftLeft_toNat t.vol (by decide)]

/-- Settles O20: the scaled volume fits the low byte, and VOL the byte above it. -/
theorem volumeWordScalesBySustain : Obligations.VolumeWordScalesBySustain := by
  unfold Obligations.VolumeWordScalesBySustain
  intro t
  have hsus := susVol_le_byte t.vol t.sus
  have hvol := t.vol.isLt
  refine ⟨volWord_toNat t, ?_, hsus, fun hfull => by rw [hfull, susVol_full]⟩
  rw [volWord_toNat]
  exact Nat.or_lt_two_pow (by omega) (by omega)

/-- A number below the shift stands beside the shifted one, so their OR is their sum. -/
theorem or_shiftLeft_eq_add {x i : Nat} (h : x < 2 ^ i) (y : Nat) : x ||| (y <<< i) = x + 2 ^ i * y := by
  rw [Nat.or_comm, ← Nat.shiftLeft_add_eq_or_of_lt h, Nat.shiftLeft_eq, Nat.mul_comm, Nat.add_comm]

/-- The fields are 2 bits each and stand side by side (47_synthesis_bridge.md R168). -/
theorem flagsWord_toNat (t : Track) : (flagsWord t).toNat = t.ch.toNat + 4 * t.mode.toNat + 16 * t.pan.toNat := by
  have hch := t.ch.isLt
  have hmode := t.mode.isLt
  rw [flagsWord, BitVec.toNat_or, BitVec.toNat_or, setWidth_shiftLeft_toNat t.mode (by decide),
    setWidth_shiftLeft_toNat t.pan (by decide), BitVec.toNat_setWidth, Nat.mod_eq_of_lt (by omega),
    or_shiftLeft_eq_add hch, or_shiftLeft_eq_add (by omega)]
  omega

/-- Settles O21: three fields of 2 bits take the six low bits. -/
theorem flagsWordPacksChannelModePan : Obligations.FlagsWordPacksChannelModePan := by
  unfold Obligations.FlagsWordPacksChannelModePan
  intro t
  have hch := t.ch.isLt
  have hmode := t.mode.isLt
  have hpan := t.pan.isLt
  refine ⟨flagsWord_toNat t, ?_⟩
  rw [flagsWord_toNat]
  omega

end Sys2Proof.Machine
end

section
/-! PROOFS. The unknown opcode (46_waits.md R161, 60_exceptions.md R177). The decoder answers it exactly where no category
owns the opcode: an opcode of a category can lack operand bytes, and nothing else. Under W4ON-L1 the ranges follow each
other without a gap from 0 to 255 (30_encoding.md R85), so every opcode has a category. -/
namespace Sys2Proof
open Machine

/-- No category is found where none owns the opcode (30_encoding.md R83, R84). -/
theorem classify_eq_none {lay : Layout} {op : Byte} :
    classify lay op = none ↔ ∀ c, lay.owns op.toNat c = false := by
  have hall : ∀ c : Category, c ∈ topDown := fun c => by cases c <;> decide
  simp [classify, hall]

/-- The ranges of W4ON-L1 leave no gap: an opcode in none of them lies at or past the end of each, for each begins where
the one below it ends (30_encoding.md R85). -/
theorem classify_w4onL1_ne_none (op : Byte) : classify w4onL1 op ≠ none := by
  rw [Ne, classify_eq_none]
  intro hnone
  have past (c : Category) (hbase : w4onL1.base c ≤ op.toNat) : w4onL1.base c + w4onL1.span c ≤ op.toNat := by
    simpa [Layout.owns, hbase] using hnone c
  have hseg : 152 ≤ op.toNat := past .note (past .swait (past .lwait (Nat.zero_le _)))
  have hsetvol : 247 ≤ op.toNat := past .arp (past .seg hseg)
  have hsetrel : 251 ≤ op.toNat := past .setsus (past .setdec (past .setatk (past .setvol hsetvol)))
  have hend : 256 ≤ op.toNat := past .setarpspd (past .setpan (past .setrel hsetrel))
  exact absurd op.isLt hend.not_gt

section operands
variable {op : Byte} {bytes : List Byte} {e : DecodeError}

/-- The one way reading an immediate byte fails (30_encoding.md R80). -/
theorem decodeImm_error {mk : Byte → Instr} (h : decodeImm op mk bytes = .error e) : e = .truncated op := by
  cases bytes <;> cases h
  rfl

/-- The one way reading a length field fails (30_encoding.md R80). -/
theorem decodeLen_error (h : decodeLen op bytes = .error e) : e = .truncated op := by
  unfold decodeLen at h
  split at h
  · cases h; rfl
  · split at h
    · split at h <;> cases h
      rfl
    · cases h

theorem decodeF2_error {mk : LenField → Instr} (h : decodeF2 op mk bytes = .error e) : e = .truncated op := by
  unfold decodeF2 at h
  split at h
  · next hlen => cases h; exact decodeLen_error hlen
  · cases h

theorem decodeF3_error {count : Nat} (h : decodeF3 op count bytes = .error e) : e = .truncated op := by
  unfold decodeF3 at h
  split at h
  · next hlen => cases h; exact decodeLen_error hlen
  · split at h <;> cases h
    rfl

/-- An opcode of a category fails to decode in one way, whatever its format: it is cut short (30_encoding.md R80). -/
theorem decodeOperands_error {c : Category} {off : Nat} (h : decodeOperands c op off bytes = .error e) :
    e = .truncated op := by
  cases c with
  | setarpspd | setrel | setsus | setdec | setatk | setvol => exact decodeImm_error h
  | note | lwait => exact decodeF2_error h
  | arp => exact decodeF3_error h
  | setpan | seg | swait => cases h

end operands

/-- The decoder answers UNKNOWN exactly for a first byte of no category (30_encoding.md R84, R86). -/
theorem decodeIn_eq_unknownOpcode {lay : Layout} {bytes : List Byte} {op : Byte} :
    decodeIn lay bytes = .error (.unknownOpcode op) ↔ bytes.head? = some op ∧ classify lay op = none := by
  cases bytes with
  | nil => simp [decodeIn]
  | cons b rest =>
    rw [List.head?_cons, Option.some.injEq]
    cases hclass : classify lay b with
    | none =>
      simp only [decodeIn, hclass, Except.error.injEq, DecodeError.unknownOpcode.injEq]
      exact ⟨fun h => ⟨h, h ▸ hclass⟩, And.left⟩
    | some c =>
      simp only [decodeIn, hclass]
      constructor
      · intro h
        cases decodeOperands_error h
      · rintro ⟨rfl, hnone⟩
        cases hclass.symm.trans hnone

/-- Settles O3: an unknown opcode is one of no category, W4ON-L1 has none, and skipping it is one write of the context. -/
theorem unknownOpcodeIsSkipped : Obligations.UnknownOpcodeIsSkipped := by
  unfold Obligations.UnknownOpcodeIsSkipped
  refine ⟨fun bytes op hunknown => ?_, fun lay op rest hnone => ?_, fun op s => ?_⟩
  · exact classify_w4onL1_ne_none op (decodeIn_eq_unknownOpcode.mp hunknown).2
  · exact decodeIn_eq_unknownOpcode.mpr ⟨rfl, classify_eq_none.mpr hnone⟩
  · exact resultIs_setTrack s _

end Sys2Proof
end

section
/-! PROOFS. Reset (70_reset_and_hazards.md R190, 10_state.md R56): the next command of the host runs whole, and after a reset
every context is the reset context. -/
namespace Sys2Proof.Machine

/-- A step with a command issued runs that command on the state without it (70_reset_and_hazards.md R201; log 1). -/
theorem step_of_cmds {s : State} {c : Command} {q : List Command} (h : s.cmds = c :: q) :
    step s = runCommand c { s with cmds := q } := by
  simp only [step, h]

@[simp] theorem resetBlock_status (s : State) : (resetBlock s).status = .uninit := rfl
@[simp] theorem resetBlock_buflen (s : State) : (resetBlock s).buflen = 0 := rfl
@[simp] theorem resetBlock_ntrk (s : State) : (resetBlock s).ntrk = 0 := rfl
@[simp] theorem resetBlock_playing (s : State) : (resetBlock s).playing = false := rfl
@[simp] theorem resetBlock_out (s : State) : (resetBlock s).out = [] := rfl

@[simp] theorem resetBlock_tracks (s : State) (i : Fin numTracks) : (resetBlock s).tracks[i] = Track.reset :=
  Vector.getElem_replicate i.isLt

/-- Settles O44: the step is the reset itself, and the 21 values of a context are those of `Track.reset`. -/
theorem resetGivesTheResetValues : Obligations.ResetGivesTheResetValues := by
  unfold Obligations.ResetGivesTheResetValues
  intro s q hreset
  have hstep : step s = .next (resetBlock { s with cmds := q }) := step_of_cmds hreset
  exact ⟨_, hstep, resetBlock_status _, resetBlock_buflen _, resetBlock_ntrk _, resetBlock_playing _, resetBlock_out _,
    resetBlock_tracks _⟩

end Sys2Proof.Machine
end

section
/-! PROOFS. The instruction codec (30_encoding.md R72 to R88). An instruction is an opcode, given by a category and an offset,
and operand bytes. The two directions of the round trip are one lemma each about the operands of an opcode; that an
instruction cut short is truncated follows from both, for no encoding begins another. -/
namespace Sys2Proof
open Machine

/-- The category of an instruction's opcode (30_encoding.md R81). -/
def Instr.category : Instr → Category
  | .lwait _ => .lwait
  | .swait _ => .swait
  | .note _ _ => .note
  | .seg _ => .seg
  | .arp _ _ => .arp
  | .setvol _ => .setvol
  | .setatk _ => .setatk
  | .setdec _ => .setdec
  | .setsus _ => .setsus
  | .setrel _ => .setrel
  | .setpan _ => .setpan
  | .setarpspd _ => .setarpspd

/-- The offset of an instruction's opcode from its category's base (30_encoding.md R81, R82). -/
def Instr.offset : Instr → Nat
  | .swait ticks => ticks.toNat - 1
  | .note pitch _ => pitch.toNat
  | .seg n => n.toNat - 1
  | .arp _ pitches => pitches.length - 2
  | .setpan c => c.toNat
  | _ => 0

/-- The bytes of an instruction after its opcode (30_encoding.md R73 to R76). -/
def Instr.operandBytes : Instr → List Byte
  | .lwait l | .note _ l => encodeLen l
  | .arp l pitches => encodeLen l ++ pitches
  | .setvol b | .setatk b | .setdec b | .setsus b | .setrel b | .setarpspd b => [b]
  | .swait _ | .seg _ | .setpan _ => []

/-- An encoding is the opcode and the operand bytes. -/
theorem encodeIn_eq_cons (lay : Layout) (i : Instr) :
    encodeIn lay i = opcodeByte lay i.category i.offset :: i.operandBytes := by
  cases i <;> rfl

theorem encodeIn_length (lay : Layout) (i : Instr) : (encodeIn lay i).length = i.size := by
  cases i <;> simp [encodeIn, Instr.size] <;> omega

section legal
variable {lay : Layout} (h : lay.legal = true)
include h

/-- The opcode of an operand that the layout encodes lies in the category's range. -/
theorem offset_lt_span {i : Instr} (hi : i.wellFormedIn lay = true) : i.offset < lay.span i.category := by
  cases i with
  | swait ticks =>
    have hlt := ticks.isLt
    simp only [Instr.offset, Instr.category, Layout.span]
    omega
  | note pitch l => simpa [Instr.wellFormedIn, Instr.offset, Instr.category, Layout.span] using hi
  | seg n =>
    have hseg := (legal_bounds h).1
    simp only [Instr.wellFormedIn, decide_eq_true_eq] at hi
    simp only [Instr.offset, Instr.category, Layout.span]
    omega
  | arp l pitches =>
    simp only [Instr.wellFormedIn, decide_eq_true_eq] at hi
    simp only [Instr.offset, Instr.category, Layout.span]
    omega
  | setpan c =>
    simp only [Instr.wellFormedIn, decide_eq_true_eq] at hi
    simp only [Instr.offset, Instr.category, Layout.span]
    omega
  | _ => exact Nat.one_pos

/-- A category's range ends at or below 256. -/
theorem span_le (c : Category) : lay.base c + lay.span c ≤ 256 := by
  obtain ⟨_, _, _, _, _, _, _, _, _, _, _, _, _, _⟩ := legal_bounds h
  cases c <;> simp only [Layout.base, Layout.span] <;> omega

end legal

/-- The operands read back from the operand bytes (30_encoding.md R81, R82). -/
theorem decodeOperands_operandBytes {lay : Layout} {i : Instr} (hi : i.wellFormedIn lay = true) (op : Byte)
    (rest : List Byte) : decodeOperands i.category op i.offset (i.operandBytes ++ rest) = .ok (i, rest) := by
  cases i with
  | lwait l => simp [Instr.category, Instr.operandBytes, decodeOperands, decodeF2, decodeLen_encodeLen]
  | swait ticks =>
    have hpos : ticks.toNat ≠ 0 := by simpa [Instr.wellFormedIn, BitVec.toNat_eq] using hi
    have hback : ticks.toNat - 1 + 1 = ticks.toNat := by omega
    simp [Instr.category, Instr.operandBytes, Instr.offset, decodeOperands, hback]
  | note pitch l =>
    simp [Instr.category, Instr.operandBytes, Instr.offset, decodeOperands, decodeF2, decodeLen_encodeLen]
  | seg n =>
    simp only [Instr.wellFormedIn, decide_eq_true_eq] at hi
    have hback : n.toNat - 1 + 1 = n.toNat := by omega
    simp [Instr.category, Instr.operandBytes, Instr.offset, decodeOperands, hback]
  | arp l pitches =>
    simp only [Instr.wellFormedIn, decide_eq_true_eq] at hi
    have hback : pitches.length - 2 + 2 = pitches.length := by omega
    simp [Instr.category, Instr.operandBytes, Instr.offset, decodeOperands, decodeF3, decodeLen_encodeLen, hback]
  | setpan c => simp [Instr.category, Instr.operandBytes, Instr.offset, decodeOperands]
  | _ => rfl

/-- Settles O1: the opcode selects the category, and the operands read back. -/
theorem decodeOfEncodeGivesItBack : Obligations.DecodeOfEncodeGivesItBack := by
  unfold Obligations.DecodeOfEncodeGivesItBack
  intro lay hlay i hi rest
  rw [encodeIn_eq_cons, List.cons_append, decodeIn_opcode hlay _ (offset_lt_span hlay hi)]
  exact decodeOperands_operandBytes hi _ rest

/-- What the operands of an opcode are, when they are answered: those of an instruction of this very opcode that the layout
encodes, from exactly its operand bytes. -/
structure OperandsOf (lay : Layout) (c : Category) (off : Nat) (bytes : List Byte) (i : Instr) (rest : List Byte) : Prop where
  wellFormed : i.wellFormedIn lay = true
  category : i.category = c
  offset : i.offset = off
  bytes_eq : bytes = i.operandBytes ++ rest

theorem decodeImm_ok {op : Byte} {mk : Byte → Instr} {bytes rest : List Byte} {i : Instr}
    (h : decodeImm op mk bytes = .ok (i, rest)) : ∃ b, i = mk b ∧ bytes = b :: rest := by
  cases bytes with
  | nil => cases h
  | cons b bs => cases h; exact ⟨b, rfl, rfl⟩

theorem decodeF2_ok {op : Byte} {mk : LenField → Instr} {bytes rest : List Byte} {i : Instr}
    (h : decodeF2 op mk bytes = .ok (i, rest)) : ∃ l, i = mk l ∧ bytes = encodeLen l ++ rest := by
  unfold decodeF2 at h
  split at h
  · cases h
  · next l r hlen => cases h; exact ⟨l, rfl, (encodeLen_decodeLen hlen).1⟩

theorem decodeF3_ok {op : Byte} {count : Nat} {bytes rest : List Byte} {i : Instr}
    (h : decodeF3 op count bytes = .ok (i, rest)) :
    ∃ l pitches, i = .arp l pitches ∧ pitches.length = count ∧ bytes = encodeLen l ++ pitches ++ rest := by
  unfold decodeF3 at h
  split at h
  · cases h
  · next l r hlen =>
    split at h
    · cases h
    · next hcount =>
      cases h
      refine ⟨l, r.take count, rfl, by simp; omega, ?_⟩
      rw [List.append_assoc, List.take_append_drop]
      exact (encodeLen_decodeLen hlen).1

/-- Everything the operands of an opcode can be (30_encoding.md R81, R82). -/
theorem decodeOperands_ok {lay : Layout} (hlay : lay.legal = true) {c : Category} {op : Byte} {off : Nat}
    {bytes rest : List Byte} {i : Instr} (hoff : off < lay.span c)
    (h : decodeOperands c op off bytes = .ok (i, rest)) : OperandsOf lay c off bytes i rest := by
  have hspan := span_le hlay c
  have imm : ∀ {mk : Byte → Instr}, (∀ b, (mk b).wellFormedIn lay = true) → (∀ b, (mk b).category = c) →
      (∀ b, (mk b).offset = 0) → (∀ b, (mk b).operandBytes = [b]) → off = 0 → decodeImm op mk bytes = .ok (i, rest) →
      OperandsOf lay c off bytes i rest := by
    rintro mk hwf hcat hoffset hbytes rfl hdec
    obtain ⟨b, rfl, rfl⟩ := decodeImm_ok hdec
    exact ⟨hwf b, hcat b, hoffset b, by simp [hbytes]⟩
  cases c with
  | setarpspd | setrel | setsus | setdec | setatk | setvol =>
    exact imm (fun _ => rfl) (fun _ => rfl) (fun _ => rfl) (fun _ => rfl) (Nat.lt_one_iff.mp hoff) h
  | setpan =>
    simp only [Layout.span] at hoff
    cases h
    refine ⟨?_, rfl, ?_, rfl⟩
    · simp [Instr.wellFormedIn]; omega
    · simp [Instr.offset]; omega
  | swait =>
    simp only [Layout.span] at hoff
    cases h
    have hticks : (BitVec.ofNat 6 (off + 1)).toNat = off + 1 := by
      rw [BitVec.toNat_ofNat, Nat.mod_eq_of_lt (by omega)]
    refine ⟨?_, rfl, by simp only [Instr.offset, hticks]; omega, rfl⟩
    simp only [Instr.wellFormedIn, bne_iff_ne, ne_eq]
    intro hzero
    rw [hzero] at hticks
    simp at hticks
  | seg =>
    simp only [Layout.span] at hoff hspan
    cases h
    have hn : (BitVec.ofNat 9 (off + 1)).toNat = off + 1 := by
      rw [BitVec.toNat_ofNat, Nat.mod_eq_of_lt (by omega)]
    refine ⟨?_, rfl, by simp only [Instr.offset, hn]; omega, rfl⟩
    simp only [Instr.wellFormedIn, hn, decide_eq_true_eq]
    omega
  | note =>
    simp only [Layout.span] at hoff hspan
    obtain ⟨l, rfl, rfl⟩ := decodeF2_ok h
    have hpitch : (BitVec.ofNat 8 off).toNat = off := by
      rw [BitVec.toNat_ofNat, Nat.mod_eq_of_lt (by omega)]
    exact ⟨by simpa [Instr.wellFormedIn, hpitch] using hoff, rfl, hpitch, rfl⟩
  | lwait =>
    obtain ⟨l, rfl, rfl⟩ := decodeF2_ok h
    exact ⟨rfl, rfl, (Nat.lt_one_iff.mp hoff).symm, rfl⟩
  | arp =>
    simp only [Layout.span] at hoff
    obtain ⟨l, pitches, rfl, hcount, rfl⟩ := decodeF3_ok h
    refine ⟨?_, rfl, by simp only [Instr.offset]; omega, rfl⟩
    simp only [Instr.wellFormedIn, decide_eq_true_eq]
    omega

/-- What was decoded is the encoding of a well-formed instruction. -/
theorem decodeIn_ok {lay : Layout} (hlay : lay.legal = true) {bytes rest : List Byte} {i : Instr}
    (h : decodeIn lay bytes = .ok (i, rest)) : i.wellFormedIn lay = true ∧ bytes = encodeIn lay i ++ rest := by
  cases bytes with
  | nil => cases h
  | cons op bytes =>
    simp only [decodeIn] at h
    split at h
    · cases h
    · next c hclass =>
      obtain ⟨hbase, hlt⟩ := (classify_eq_some hlay op c).mp hclass
      obtain ⟨hwf, hcat, hoff, rfl⟩ := decodeOperands_ok hlay (by omega) h
      refine ⟨hwf, ?_⟩
      rw [encodeIn_eq_cons, hcat, hoff, opcodeByte_sub hbase, List.cons_append]

/-- Settles O2: the opcode and the operand bytes are those of the instruction answered. -/
theorem decodedBytesAreTheEncoding : Obligations.DecodedBytesAreTheEncoding := by
  unfold Obligations.DecodedBytesAreTheEncoding
  intro lay hlay bytes i rest h
  obtain ⟨hwf, rfl⟩ := decodeIn_ok hlay h
  exact ⟨hwf, rfl, by rw [List.length_append, encodeIn_length]⟩

/-- No encoding begins another one: an instruction cut short does not decode. -/
theorem decodeIn_take_ne_ok {lay : Layout} (hlay : lay.legal = true) {i : Instr} (hi : i.wellFormedIn lay = true) {n : Nat}
    (hn : n < i.size) (r : Instr × List Byte) : decodeIn lay ((encodeIn lay i).take n) ≠ .ok r := by
  obtain ⟨j, rest⟩ := r
  intro h
  obtain ⟨hj, hbytes⟩ := decodeIn_ok hlay h
  have hwhole : encodeIn lay i ++ [] = encodeIn lay j ++ (rest ++ (encodeIn lay i).drop n) := by
    rw [← List.append_assoc, ← hbytes, List.take_append_drop, List.append_nil]
  have hj' := decodeOfEncodeGivesItBack lay hlay j hj (rest ++ (encodeIn lay i).drop n)
  rw [← hwhole, decodeOfEncodeGivesItBack lay hlay i hi] at hj'
  simp only [Except.ok.injEq, Prod.mk.injEq, List.nil_eq, List.append_eq_nil_iff, List.drop_eq_nil_iff,
    encodeIn_length] at hj'
  omega

/-- All that the decoder of W4ON-CORE can answer but an instruction: its opcode has its operands cut short. -/
theorem decode_cons_error {op : Byte} {bytes : List Byte} {e : DecodeError} (h : decode (op :: bytes) = .error e) :
    e = .truncated op := by
  simp only [decode, decodeIn] at h
  split at h
  · next hnone => exact absurd hnone (classify_w4onL1_ne_none op)
  · exact decodeOperands_error h

/-- A proper nonempty part of an instruction is truncated, and the decoder names the opcode (30_encoding.md R80). -/
theorem decode_take_encode {i : Instr} (hi : i.wellFormed = true) {n : Nat} (hpos : 0 < n) (hn : n < i.size) :
    decode ((encode i).take n) = .error (.truncated (opcodeByte w4onL1 i.category i.offset)) := by
  have hne := decodeIn_take_ne_ok w4onL1_legal hi hn
  obtain ⟨m, rfl⟩ := Nat.exists_eq_succ_of_ne_zero hpos.ne'
  cases hdec : decode ((encode i).take (m + 1)) with
  | ok r => exact absurd hdec (hne r)
  | error e =>
    rw [encode, encodeIn_eq_cons, List.take_succ_cons] at hdec
    rw [decode_cons_error hdec]

/-- Settles O7: the decoder fails on a part of an encoding, and it fails in one way. -/
theorem cutInstructionIsTruncated : Obligations.CutInstructionIsTruncated := by
  unfold Obligations.CutInstructionIsTruncated
  intro i hi n hpos hn
  refine ⟨_, ?_, decode_take_encode hi hpos hn⟩
  rw [encode, encodeIn_eq_cons, List.head?_cons]

/-- The bytes of the canonical length field in numbers (30_encoding.md R79). -/
theorem encodeLength_short {v : BitVec 15} (h : v.toNat ≤ 127) : encodeLength v = [BitVec.ofNat 8 v.toNat] := by
  rw [encodeLength, canonicalLen, if_pos h, encodeLen]
  congr 1
  apply BitVec.eq_of_toNat_eq
  rw [shortField_toNat, BitVec.toNat_setWidth, BitVec.toNat_ofNat]
  omega

theorem encodeLength_long {v : BitVec 15} (h : 128 ≤ v.toNat) :
    encodeLength v = [0x80#8 ||| BitVec.ofNat 8 (v.toNat / 256), BitVec.ofNat 8 (v.toNat % 256)] := by
  have hv := v.isLt
  have hhigh : (0x80#8 ||| BitVec.ofNat 8 (v.toNat / 256)).toNat = 128 + v.toNat / 256 := by
    have hor := or_shiftLeft_eq_add (x := v.toNat / 256) (i := 7) (by omega) 1
    rw [BitVec.toNat_or, BitVec.toNat_ofNat, BitVec.toNat_ofNat, Nat.or_comm,
      Nat.mod_eq_of_lt (a := v.toNat / 256) (by omega)]
    exact hor.trans (Nat.add_comm ..)
  rw [encodeLength, canonicalLen, if_neg (by omega), encodeLen]
  congr 1
  · apply BitVec.eq_of_toNat_eq
    rw [longFieldHigh_toNat, hhigh]
  · congr 1
    apply BitVec.eq_of_toNat_eq
    rw [BitVec.toNat_setWidth, BitVec.toNat_ofNat]
    omega

theorem canonicalLen_value (v : BitVec 15) : (canonicalLen v).value.toNat = v.toNat := by
  unfold canonicalLen
  split <;> simp only [LenField.value, BitVec.toNat_setWidth] <;> omega

theorem canonicalLen_size (v : BitVec 15) : (canonicalLen v).size = if v.toNat ≤ 127 then 1 else 2 := by
  unfold canonicalLen
  split <;> rfl

/-- Settles O5: the canonical field has the value and the size, and it reads back from its bytes. -/
theorem lengthCodecRoundTrips : Obligations.LengthCodecRoundTrips := by
  unfold Obligations.LengthCodecRoundTrips
  intro v
  refine ⟨encodeLength_short, encodeLength_long, fun op rest => ⟨canonicalLen v, ?_, ?_, ?_⟩⟩
  · exact decodeLen_encodeLen op _ rest
  · exact canonicalLen_value v
  · exact canonicalLen_size v

/-- A word that encodes a well-formed instruction decodes to it. -/
theorem decode_of_encode {i : Instr} {bytes : List Byte} (hi : i.wellFormed = true) (h : encode i = bytes) :
    decode bytes = .ok (i, []) := by
  have hback := decodeOfEncodeGivesItBack w4onL1 w4onL1_legal i hi []
  rwa [List.append_nil, show encodeIn w4onL1 i = bytes from h] at hback

/-- Settles O4: each word is the encoding of what it stands for. -/
theorem wordsOfTheTableDecode : Obligations.WordsOfTheTableDecode := by
  unfold Obligations.WordsOfTheTableDecode
  refine ⟨?_, ?_, ?_, ?_, ?_, ?_, ?_, ?_, ?_, ?_, ?_, ?_⟩ <;> exact decode_of_encode (by decide) (by decide)

end Sys2Proof
end

section
/-! PROOFS. Single instructions and the fault action (43_setters.md to 46_waits.md; 60_exceptions.md R172 to R174). An
instruction other than a NOTE is one write of its track's context, behind the truncation check where its format has bytes
after the opcode; a NOTE also emits one tone, or takes BAD_PITCH. -/
namespace Sys2Proof.Machine

theorem takesFault_raiseFault (c : TrackFault) (s : State) : TakesFault (.next (raiseFault c s)) s c :=
  resultIs_setTrack ..

section withBytes
variable {n : Nat} {f : State → State} {s : State}

/-- With its bytes before END, an instruction that writes the context `t` completes with it. -/
theorem withBytes_resultIs {t : Track} (hbytes : n ≤ s.track.avail) (hf : f s = s.setTrack t) :
    ResultIs (withBytes n f s) s t [] := by
  rw [withBytes_of_le hbytes, hf]
  exact resultIs_setTrack ..

/-- Without them the effect does not matter (30_encoding.md R80). -/
theorem withBytes_takesFault (hbytes : s.track.avail < n) : TakesFault (withBytes n f s) s .truncatedStream := by
  rw [withBytes_of_lt hbytes]
  exact takesFault_raiseFault ..

end withBytes

/-- Settles O8: six setters are the same write of one field, and SETPAN is that write without the truncation check. -/
theorem settersWriteTheirField : Obligations.SettersWriteTheirField := by
  unfold Obligations.SettersWriteTheirField CompletesWith
  intro s
  refine ⟨fun hbytes b => ⟨?_, ?_, ?_, ?_, ?_, ?_⟩, fun c => resultIs_setTrack ..⟩ <;> exact withBytes_resultIs hbytes rfl

/-- Settles O9: the marker writes SEGP in the mode of W4ON-CORE, and SEGL in the other. -/
theorem segWritesThePendingCount : Obligations.SegWritesThePendingCount := by
  unfold Obligations.SegWritesThePendingCount CompletesWith
  exact ⟨fun _ _ => resultIs_setTrack .., fun _ _ => rfl⟩

/-- The longest LWAIT does not wrap (46_waits.md R160). -/
theorem lwaitTicks_toNat (l : LenField) : (l.value + 64).toNat = l.value.toNat + 64 := by
  have hvalue := lenField_value_lt l
  have hbase : (64 : Half).toNat = 64 := rfl
  rw [BitVec.toNat_add, hbase]
  omega

/-- Settles O14: both waits are one write of the context, and their counts do not wrap. -/
theorem waitsStartARest : Obligations.WaitsStartARest := by
  unfold Obligations.WaitsStartARest CompletesWith
  constructor
  · intro s ticks
    refine ⟨ticks.setWidth 16, ?_, resultIs_setTrack ..⟩
    rw [BitVec.toNat_setWidth]
    omega
  · intro s l hbytes
    exact ⟨l.value + 64, lwaitTicks_toNat l, withBytes_resultIs hbytes rfl⟩

/-- A NOTE without a frequency for its pitch, or for LAST in a slide, is BAD_PITCH (60_exceptions.md R173). -/
theorem noteEffect_of_bad_pitch {s : State} {pitch : Byte} {l : LenField}
    (hbad : 132 ≤ pitch.toNat ∨ (s.track.segl ≠ 0 ∧ 132 ≤ s.track.last.toNat)) :
    noteEffect pitch l s = raiseFault .badPitch s := by
  rcases hbad with hpitch | ⟨hsegl, hlast⟩
  · have hnone : freq s.rom pitch = none := freq_eq_none.mpr hpitch
    simp only [noteEffect, plainNote, slideNote, hnone]
    split
    · rfl
    · cases freq s.rom s.track.last <;> rfl
  · have hnone : freq s.rom s.track.last = none := freq_eq_none.mpr hlast
    simp only [noteEffect, if_neg hsegl, slideNote, hnone]

/-- Settles O12: the lookup comes before every other effect of the NOTE. -/
theorem noteTakesBadPitch : Obligations.NoteTakesBadPitch := by
  unfold Obligations.NoteTakesBadPitch
  intro s pitch l hbytes hbad
  rw [exec_note_of_le hbytes, noteEffect_of_bad_pitch hbad]
  exact takesFault_raiseFault ..

/-- Settles O15: three instructions have no bytes to check, and the others are behind the check. -/
theorem truncationIsCheckedFirst : Obligations.TruncationIsCheckedFirst := by
  unfold Obligations.TruncationIsCheckedFirst
  intro i s
  have unchecked : ∀ t : Track, t.halt = s.track.halt → t.fault = s.track.fault →
      ∃ s', Host.Outcome.next (s.setTrack t) = (.next s' : Host.Outcome State Fault Refusal) ∧
        s'.track.halt = s.track.halt ∧ s'.track.fault = s.track.fault := fun t hhalt hfault =>
    ⟨_, rfl, by rwa [setTrack_track], by rwa [setTrack_track]⟩
  cases i with
  | swait | seg | setpan => exact unchecked _ rfl rfl
  | _ => exact withBytes_takesFault

/-- A window cut short by END alone is TRUNCATED_STREAM (42_tick_dispatcher.md R116, 60_exceptions.md R172). -/
theorem undecoded_truncated_of_full {op : Byte} {s : State} (hfull : s.track.window ≤ (fetch s).length) :
    undecoded (.truncated op) s = .next (raiseFault .truncatedStream s) := by
  simp only [undecoded, if_neg (Nat.not_lt.mpr hfull)]

/-- Settles O16: the bytes before END are a part of an instruction, so the decoder calls them truncated, and none of them
was missing. -/
theorem streamEndInsideInstructionFaults : Obligations.StreamEndInsideInstructionFaults := by
  unfold Obligations.StreamEndInsideInstructionFaults
  intro s i hi hready hcut hfetch
  have hpos : 0 < s.track.avail := Nat.sub_pos_of_lt (ready_iff.mp hready).2.2
  have hdecode := decode_take_encode hi hpos hcut
  have hlength : (fetch s).length = s.track.avail := by
    rw [hfetch, List.length_take, encode, encodeIn_length, Nat.min_eq_left hcut.le]
  have hfull : s.track.window ≤ (fetch s).length := hlength ▸ Nat.min_le_left ..
  rw [← hfetch] at hdecode
  simp only [executeOne, hdecode, undecoded_truncated_of_full hfull]
  exact takesFault_raiseFault ..

/-! ### The fault action -/

theorem eventStep_of_idle {s : State} (h : s.track.halt = true ∨ s.track.etl = 0) : eventStep s = .next s := by
  rw [eventStep, if_pos (by simpa using h)]

/-- One turn of the dispatch loop (42_tick_dispatcher.md R115). -/
theorem dispatchLoop_succ_of_ready {n : Nat} {s : State} (h : s.track.ready = true) :
    dispatchLoop (n + 1) s = andThen (executeOne s) (dispatchLoop n) := if_pos h

theorem not_ready_of_halted {t : Track} (h : t.halt = true) : t.ready = false := by simp [Track.ready, h]

/-- Beginning a track writes `act` and that track's PLAY. -/
theorem beginTrack_same (i : Fin numTracks) (s : State) : SameElsewhere { s with act := i } (beginTrack i s) :=
  ⟨rfl, rfl, rfl, rfl, beginTrack_other i s, rfl, fun _ => rfl, rfl, rfl, rfl, rfl⟩

/-- Settles O17: a halted track takes no turn of the loop and no event step. -/
theorem faultActionEndsTheTrack : Obligations.FaultActionEndsTheTrack := by
  unfold Obligations.FaultActionEndsTheTrack
  refine ⟨fun s c => takesFault_raiseFault c s, fun s c n hready hfault => ?_, fun i s hhalt => ?_⟩
  · have hhalted : (raiseFault c s).track.halt = true := by rw [raiseFault_track]
    rw [dispatchLoop_succ_of_ready hready, hfault, andThen_next, dispatchLoop_of_not_ready (not_ready_of_halted hhalted),
      andThen_next, eventStep_of_idle (.inl hhalted)]
  · exact ⟨_, processTrack_of_halted hhalt, rfl, beginTrack_track i s, beginTrack_same i s⟩

/-! ### What emits -/

/-- An instruction other than a NOTE is one write of its track's context. -/
theorem exec_eq_setTrack {i : Instr} (hi : ∀ p l, i ≠ .note p l) (s : State) : ∃ t, exec i s = .next (s.setTrack t) := by
  have checked : ∀ (n : Nat) (f : State → State), (∃ t, f s = s.setTrack t) →
      ∃ t, withBytes n f s = .next (s.setTrack t) := by
    rintro n f ⟨t, ht⟩
    unfold withBytes
    split
    · exact ⟨t, by rw [ht]⟩
    · exact ⟨_, rfl⟩
  cases i with
  | note p l => exact absurd rfl (hi p l)
  | swait | seg | setpan => exact ⟨_, rfl⟩
  | _ => exact checked _ _ ⟨_, rfl⟩

/-- The four cases of a NOTE: cut short, without a frequency, plain, and a slide (44_note_segment.md R139, R140). They look
at its track's context and the ROM alone. -/
theorem note_cases (rom : Vector Half 12) (t : Track) (pitch : Byte) (l : LenField) :
    t.avail < 1 + l.size ∨ (1 + l.size ≤ t.avail ∧ (132 ≤ pitch.toNat ∨ (t.segl ≠ 0 ∧ 132 ≤ t.last.toNat))) ∨
    (1 + l.size ≤ t.avail ∧ t.segl = 0 ∧ ∃ f, freq rom pitch = some f) ∨
    (1 + l.size ≤ t.avail ∧ t.segl ≠ 0 ∧ ∃ f0 f1, freq rom t.last = some f0 ∧ freq rom pitch = some f1) := by
  rcases Nat.lt_or_ge t.avail (1 + l.size) with hcut | hbytes
  · exact .inl hcut
  · refine .inr ?_
    cases hf : freq rom pitch with
    | none => exact .inl ⟨hbytes, .inl (freq_eq_none.mp hf)⟩
    | some f1 =>
      by_cases hsegl : t.segl = 0
      · exact .inr (.inl ⟨hbytes, hsegl, f1, rfl⟩)
      · cases hlast : freq rom t.last with
        | none => exact .inl ⟨hbytes, .inr ⟨hsegl, freq_eq_none.mp hlast⟩⟩
        | some f0 => exact .inr (.inr ⟨hbytes, hsegl, f0, f1, rfl, rfl⟩)

theorem initCommand_out {len : Word} {s s' : State} (h : initCommand len s = .next s') : s'.out = s.out := by
  rcases initCommand_cases h with rfl | ⟨-, n, ts, -, -, -, rfl⟩ <;> rfl

/-- Settles O47: a write of the context emits nothing, and each of the other pieces emits at most once. -/
theorem onlyNotesAndRetriggersEmit : Obligations.OnlyNotesAndRetriggersEmit := by
  unfold Obligations.OnlyNotesAndRetriggersEmit
  refine ⟨fun s s' c htick hreset h => ?_, fun i s s' hi h => ?_, fun p l s => ?_, fun s s' h => ?_⟩
  · cases c with
    | reset => exact absurd rfl hreset
    | tick => exact absurd rfl htick
    | init len => exact initCommand_out h
    | place a b => cases h; rfl
    | readStatus => cases h; rfl
  · obtain ⟨t, ht⟩ := exec_eq_setTrack hi s
    cases ht.symm.trans h
    rfl
  · rcases note_cases s.rom s.track p l with hcut | ⟨hbytes, hbad⟩ | ⟨hbytes, hsegl, f, hf⟩ | ⟨hbytes, hsegl, f0, f1, hf0, hf1⟩
    · exact .inl ⟨_, withBytes_takesFault hcut⟩
    · exact .inl ⟨_, noteTakesBadPitch s p l hbytes hbad⟩
    · obtain ⟨s', hexec, -, hout, -⟩ := plainNoteCompletes s p l f hbytes hsegl hf
      exact .inr ⟨s', _, hexec, hout⟩
    · obtain ⟨s', hexec, -, hout, -⟩ := slideNoteCompletes s p l f0 f1 hbytes hsegl hf0 hf1
      exact .inr ⟨s', _, hexec, hout⟩
  · rcases arpStep_cases h with rfl | rfl | rfl | ⟨f, rfl⟩
    · exact .inl rfl
    · exact .inl rfl
    · exact .inl rfl
    · exact .inr ⟨_, rfl⟩

end Sys2Proof.Machine
end

section
/-! PROOFS. The event step where it takes no fault (42_tick_dispatcher.md R120 to R122, 45_arpeggio.md R153): PLAY, at most one
retrigger, and the counters, which together are one write of the context after the tone. -/
namespace Sys2Proof.Machine

/-- The context after an event step without a fault (42_tick_dispatcher.md R121, R122). -/
def Track.counted (t : Track) : Track := { t with play := true, elap := t.elap + 1, etl := t.etl - 1 }

section eventStep
variable {s : State}

theorem countTick_markPlaying (s : State) : countTick (markPlaying s) = s.setTrack s.track.counted := by
  simp only [countTick, markPlaying, setTrack_track, setTrack_setTrack, Track.counted]

/-- A write of the context before a tone is lost in the write after it. -/
theorem setTrack_emit_setTrack (s : State) (t u : Track) (f d v fl : Word) :
    ((s.setTrack t).emit f d v fl).setTrack u = (s.emit f d v fl).setTrack u := by
  simp [State.emit, State.setTrack]

/-- PLAY, a tone and the counters are the tone and one write of the context. -/
theorem countTick_emitPlain_markPlaying (f : Half) (len guard : Nat) (s : State) :
    countTick (emitPlain f len guard (markPlaying s)) = (emitPlain f len guard s).setTrack s.track.counted := by
  simp only [countTick, emitPlain_eq, emit_track, markPlaying_track, Track.counted]
  exact setTrack_emit_setTrack s ..

theorem countUnlessHalted_of_running (h : s.track.halt = false) : countUnlessHalted s = .next (countTick s) :=
  if_neg (by simp [h])

theorem eventStep_of_no_arp (hhalt : s.track.halt = false) (hetl : s.track.etl ≠ 0) (harp : s.track.arpon = false) :
    eventStep s = .next (s.setTrack s.track.counted) := by
  have hruns : ¬ (s.track.halt || s.track.etl == 0) = true := by simpa [hhalt] using hetl
  rw [eventStep, if_neg hruns, if_neg (by simp [harp]), countTick_markPlaying]

/-- Between retriggers the arpeggio step does nothing (45_arpeggio.md R153). -/
theorem arpStep_of_not_due (hspd : s.track.arpspd ≠ 0) (hwait : s.track.elap.toNat % s.track.arpspd.toNat ≠ 0) :
    arpStep s = .next s := by
  simp only [arpStep, if_neg hspd, if_pos hwait]

theorem eventStep_of_not_due (hhalt : s.track.halt = false) (hetl : s.track.etl ≠ 0) (harp : s.track.arpon = true)
    (hspd : s.track.arpspd ≠ 0) (hwait : s.track.elap.toNat % s.track.arpspd.toNat ≠ 0) :
    eventStep s = .next (s.setTrack s.track.counted) := by
  have hstep : arpStep (markPlaying s) = .next (markPlaying s) := by
    apply arpStep_of_not_due <;> rw [markPlaying_track]
    · exact hspd
    · exact hwait
  rw [eventStep_of_arpon hhalt hetl harp, hstep, andThen_next,
    countUnlessHalted_of_running (by rw [markPlaying_track]; exact hhalt), countTick_markPlaying]

theorem retrigger_of_freq {p : Byte} {f : Half} (hf : freq s.rom p = some f) :
    retrigger p s = emitPlain f s.track.arpspd.toNat 0 s := by
  rw [retrigger, hf]

theorem eventStep_of_due (hhalt : s.track.halt = false) (hetl : s.track.etl ≠ 0) (harp : s.track.arpon = true)
    (hspd : s.track.arpspd ≠ 0) (hdue : s.track.elap.toNat % s.track.arpspd.toNat = 0) (hlast : s.track.last ≠ 0)
    {p : Byte} {f : Half} (hread : memRead s (s.track.arpptr.toNat + s.track.arpIndex) = .ok p)
    (hf : freq s.rom p = some f) :
    eventStep s = .next ((emitPlain f s.track.arpspd.toNat 0 s).setTrack s.track.counted) := by
  have htrack := markPlaying_track s
  have hstep : arpStep (markPlaying s) = .next (emitPlain f s.track.arpspd.toNat 0 (markPlaying s)) := by
    have hretrigger := retrigger_of_freq (s := markPlaying s) hf
    rw [htrack] at hretrigger
    rw [← hretrigger]
    apply arpStep_of_due <;> rw [htrack]
    · exact hspd
    · exact hdue
    · exact hlast
    · exact (memRead_congr rfl rfl _).trans hread
  have hrunning : (emitPlain f s.track.arpspd.toNat 0 (markPlaying s)).track.halt = false := by
    rw [emitPlain_eq, emit_track, htrack]
    exact hhalt
  rw [eventStep_of_arpon hhalt hetl harp, hstep, andThen_next, countUnlessHalted_of_running hrunning,
    countTick_emitPlain_markPlaying]

end eventStep

/-- Settles O24: on a tick due the read gives the pitch of the one tone, and on another tick nothing is read. -/
theorem arpeggioStepRetriggers : Obligations.ArpeggioStepRetriggers := by
  unfold Obligations.ArpeggioStepRetriggers
  intro s hhalt hetl harp hspd
  constructor
  · intro hwait
    rw [eventStep_of_not_due hhalt hetl harp hspd hwait]
    exact resultIs_setTrack ..
  · intro p f hdue hlast hread hf
    rw [eventStep_of_due hhalt hetl harp hspd hdue hlast hread hf, emitPlain_eq]
    exact resultIs_emit_setTrack ..

/-- Settles O26: without an arpeggio the step is PLAY and the counters, and without an event there is none. -/
theorem eventStepCounts : Obligations.EventStepCounts := by
  unfold Obligations.EventStepCounts
  intro s
  refine ⟨fun hhalt hetl harp => ?_, eventStep_of_idle⟩
  rw [eventStep_of_no_arp hhalt hetl harp]
  exact resultIs_setTrack ..

end Sys2Proof.Machine
end

section
/-! PROOFS. The envelope (44_note_segment.md R141) and the range of the frequencies (40_codec_frequency.md R98). -/
namespace Sys2Proof.Machine

/-- Settles O18: each of the three parts is cut to what the ones before it leave. -/
theorem envelopeSplitsTheLength : Obligations.EnvelopeSplitsTheLength := by
  unfold Obligations.EnvelopeSplitsTheLength
  intro len atk dec hatk hdec hlen
  simp only [envelope]
  refine ⟨trivial, trivial, trivial, ?_, ?_, ?_, ?_⟩ <;> omega

/-- The table rises, so its last entry bounds all and its fourth the first four (10_state.md R52). -/
theorem freqTable_le (k : Fin 12) : freqTable[k].toNat ≤ 53159 ∧ (k.val ≤ 3 → freqTable[k].toNat ≤ 33488) := by
  revert k
  decide

/-- Settles O23: a shift does not raise an entry, and up to note 87 it is 3 for the first four entries and more for the
others. -/
theorem frequencyFitsItsHalf : Obligations.FrequencyFitsItsHalf := by
  unfold Obligations.FrequencyFitsItsHalf
  refine ⟨by decide, rfl, fun n f hf => ?_⟩
  have hn : n.toNat < 132 := Nat.lt_of_not_le fun hbad => by simp [freq_eq_none.mpr hbad] at hf
  obtain ⟨hentry, hfirst⟩ := freqTable_le ⟨n.toNat % 12, Nat.mod_lt _ (by decide)⟩
  obtain ⟨g, hg, hvalue, -⟩ := frequencyIsTheShiftedTableEntry freqTable n (Nat.le_of_lt_succ hn)
  obtain rfl : g = f := Option.some.inj (hg.symm.trans hf)
  refine ⟨hvalue ▸ (Nat.div_le_self ..).trans hentry, g.isLt, fun hlow => ?_⟩
  rw [hvalue]
  rcases Nat.lt_or_ge n.toNat 84 with hoctave | hoctave
  · have hshift : 2 ^ 4 ≤ 2 ^ (10 - n.toNat / 12) := Nat.pow_le_pow_right (by decide) (by omega)
    calc _ ≤ 53159 / 2 ^ 4 := Nat.div_le_div hentry hshift (by decide)
      _ ≤ 4186 := by decide
  · have hshift : 10 - n.toNat / 12 = 3 := by omega
    calc _ ≤ 33488 / 2 ^ 3 := hshift ▸ Nat.div_le_div_right (hfirst (show n.toNat % 12 ≤ 3 by omega))
      _ ≤ 4186 := by decide

end Sys2Proof.Machine
end

section
/-! PROOFS. The host's commands that parse no header and run no track (10_state.md R54, R55; 70_reset_and_hazards.md R193,
R196): a step is the command, and the command is one update of the state. -/
namespace Sys2Proof.Machine

/-- A TICK without an accepted header (42_tick_dispatcher.md R112). -/
theorem tick_of_not_ready {s : State} (h : s.status ≠ .ready) :
    tick s = .next { s with playing := false, replies := s.replies ++ [.tick false] } := if_pos h

/-- A TICK of an unwritten song processes the four tracks (42_tick_dispatcher.md R124). -/
theorem tick_of_ready {s : State} (hready : s.status = .ready) (hwritten : s.bufWritten = false) :
    tick s = andThen (processTracks [0, 1, 2, 3] s) fun s' => .next (endTick s') := by
  rw [tick, if_neg (not_not.mpr hready), hwritten]
  rfl

/-- Settles O28: the step is the TICK, and the TICK is one update. -/
theorem tickWithoutSequenceDoesNothing : Obligations.TickWithoutSequenceDoesNothing := by
  unfold Obligations.TickWithoutSequenceDoesNothing
  intro s q hcmds hready
  rw [step_of_cmds hcmds]
  exact tick_of_not_ready hready

/-- Settles O45: the view holds the registers and each track's two fields. -/
theorem statusReadReturnsTheView : Obligations.StatusReadReturnsTheView := by
  unfold Obligations.StatusReadReturnsTheView
  intro s q hcmds
  refine ⟨s.statusView, step_of_cmds hcmds, rfl, rfl, rfl, fun i => ?_⟩
  match i with
  | 0 | 1 | 2 | 3 => exact ⟨rfl, rfl⟩

/-- Settles O48: placing a parsed byte leaves the mark, and TICK looks at it. -/
theorem tickAfterBufferWriteStops : Obligations.TickAfterBufferWriteStops := by
  unfold Obligations.TickAfterBufferWriteStops
  intro s a b q hcmds hready ha
  refine ⟨_, step_of_cmds hcmds, ?_⟩
  have hmark : (placeByte a b { s with cmds := .tick :: q }).bufWritten = true := by simp [placeByte, hready, ha]
  rw [step_of_cmds (c := .tick) (q := q) rfl]
  exact (if_neg (not_not.mpr hready)).trans (if_pos hmark)

/-- Settles O52: the byte is one write of the buffer, and no other field but the mark changes. -/
theorem placingWritesOneByte : Obligations.PlacingWritesOneByte := by
  unfold Obligations.PlacingWritesOneByte
  intro s a b q hcmds
  refine ⟨_, step_of_cmds hcmds, fun x => Memory.read_write s.mem a.toNat b x, rfl, rfl, rfl, rfl, rfl, rfl, rfl, rfl,
    rfl, rfl, ?_⟩
  simp [placeByte]

/-- Settles O49: every context is the reset one, and no track is in use. -/
theorem resetMeetsTheInvariant : Obligations.ResetMeetsTheInvariant := by
  unfold Obligations.ResetMeetsTheInvariant
  have hunused : ∀ j : Fin numTracks, ¬ j.val < State.reset.ntrk.toNat := fun j => Nat.not_lt_zero _
  refine ⟨?_, fun i j _ hj => absurd hj (hunused j), fun i j _ hj => absurd hj (hunused j)⟩
  simp only [inv_iff, Track.inv_iff]
  decide

end Sys2Proof.Machine
end

section
/-! PROOFS. The frame of a TICK: how the pieces of it follow each other, what all of them keep, and whose events they emit
(42_tick_dispatcher.md R113 to R119, R124, R127). -/
namespace Sys2Proof.Machine

theorem andThen_assoc (o : Host.Outcome State Fault Refusal) (k m : State → Host.Outcome State Fault Refusal) :
    andThen (andThen o k) m = andThen o fun s => andThen (k s) m := by
  cases o <;> rfl

/-- A track that is not halted runs its loop, then its event step (42_tick_dispatcher.md R114, R115, R120). -/
theorem processTrack_of_running {i : Fin numTracks} {s : State} (h : (beginTrack i s).track.halt = false) :
    processTrack i s = andThen (dispatchLoop (beginTrack i s).track.avail (beginTrack i s)) eventStep :=
  if_neg (Bool.eq_false_iff.mp h)

theorem executeOne_of_decode {s : State} {i : Instr} {rest : List Byte} (h : decode (fetch s) = .ok (i, rest)) :
    executeOne s = exec i s := by
  simp only [executeOne, h]

/-- Settles O27: the first turn of the first track's loop comes out of the nested pieces of the TICK. -/
theorem stepRunsTheDecodedInstruction : Obligations.StepRunsTheDecodedInstruction := by
  unfold Obligations.StepRunsTheDecodedInstruction
  refine ⟨fun s i rest => executeOne_of_decode, fun s s0 q i rest hcmds hready hwritten hs0 hready0 hdecode => ?_⟩
  obtain ⟨-, hhalt, hcur⟩ := ready_iff.mp hready0
  have hfuel : s0.track.avail = s0.track.avail - 1 + 1 := (Nat.sub_add_cancel (Nat.sub_pos_of_lt hcur)).symm
  have hfirst : processTrack 0 { s with cmds := q } =
      andThen (andThen (exec i s0) (dispatchLoop (s0.track.avail - 1))) eventStep := by
    rw [← executeOne_of_decode hdecode, ← dispatchLoop_succ_of_ready hready0, ← hfuel, hs0]
    exact processTrack_of_running (hs0 ▸ hhalt)
  rw [step_of_cmds hcmds]
  refine (tick_of_ready (s := { s with cmds := q }) hready hwritten).trans ?_
  rw [processTracks, hfirst]
  simp only [andThen_assoc]

/-- A turn of the loop takes at least one byte of its fuel, or halts the track (42_tick_dispatcher.md R119). -/
theorem dispatchLoop_drains (n : Nat) {s s' : State} (havail : s.track.avail ≤ n) (h : dispatchLoop n s = .next s') :
    s'.track.ready = false := by
  induction n generalizing s with
  | zero =>
    cases h
    rw [← Bool.not_eq_true, ready_iff]
    unfold Track.avail at havail
    omega
  | succ n ih =>
    cases hready : s.track.ready with
    | false =>
      rw [dispatchLoop_of_not_ready hready] at h
      cases h
      exact hready
    | true =>
      rw [dispatchLoop_succ_of_ready hready] at h
      obtain ⟨s1, hfirst, hrest⟩ := andThen_eq_next.mp h
      obtain ⟨hwithin, -, ⟨c, -, rfl⟩ | ⟨-, -, hcur, -⟩⟩ := executeOne_cases hready hfirst
      · have hhalted : (raiseFault c s).track.ready = false := not_ready_of_halted (by rw [raiseFault_track])
        rw [dispatchLoop_of_not_ready hhalted] at hrest
        cases hrest
        exact hhalted
      · refine ih ?_ hrest
        have hend := hwithin.endOff
        unfold Track.avail at havail ⊢
        rw [hend]
        omega

/-- Settles O30: a track that is not ready is in an event, halted or at the end of its stream. -/
theorem dispatchLoopDrains : Obligations.DispatchLoopDrains := by
  unfold Obligations.DispatchLoopDrains
  intro s s' h
  have hready := dispatchLoop_drains _ le_rfl h
  by_contra hnot
  simp only [not_or, not_not, Bool.not_eq_true, Nat.not_le] at hnot
  exact Bool.false_ne_true (hready.symm.trans (ready_iff.mpr hnot))

/-- What no part of a TICK writes (10_state.md R54), and that no event emitted is taken back. -/
structure TickKeeps (s s' : State) : Prop where
  status : s'.status = s.status
  buflen : s'.buflen = s.buflen
  ntrk : s'.ntrk = s.ntrk
  rom : s'.rom = s.rom
  mem : s'.mem = s.mem
  bufWritten : s'.bufWritten = s.bufWritten
  cmds : s'.cmds = s.cmds
  out : s.out <+: s'.out

theorem TickKeeps.refl (s : State) : TickKeeps s s := ⟨rfl, rfl, rfl, rfl, rfl, rfl, rfl, List.prefix_rfl⟩

theorem TickKeeps.trans {s1 s2 s3 : State} (h : TickKeeps s1 s2) (g : TickKeeps s2 s3) : TickKeeps s1 s3 :=
  ⟨g.status.trans h.status, g.buflen.trans h.buflen, g.ntrk.trans h.ntrk, g.rom.trans h.rom, g.mem.trans h.mem,
    g.bufWritten.trans h.bufWritten, g.cmds.trans h.cmds, h.out.trans g.out⟩

theorem processTrack_keeps {i : Fin numTracks} {s s' : State} (h : processTrack i s = .next s') : TickKeeps s s' := by
  obtain ⟨hsame, hmem, -, -, -, -, evs, hout, -, -⟩ := (processTrack_within h).1
  exact ⟨hsame.status, hsame.buflen, hsame.ntrk, hsame.rom, hmem, hsame.bufWritten, hsame.cmds, evs, hout.symm⟩

theorem processTracks_keeps (l : List (Fin numTracks)) {s s' : State} (h : processTracks l s = .next s') :
    TickKeeps s s' := by
  induction l generalizing s with
  | nil => cases h; exact .refl _
  | cons i rest ih =>
    obtain ⟨s1, hfirst, hrest⟩ := andThen_eq_next.mp h
    exact (processTrack_keeps hfirst).trans (ih hrest)

theorem endTick_keeps (s : State) : TickKeeps s (endTick s) := ⟨rfl, rfl, rfl, rfl, rfl, rfl, rfl, List.prefix_rfl⟩

theorem tick_keeps {s s' : State} (h : tick s = .next s') : TickKeeps s s' := by
  rcases tick_cases h with ⟨-, rfl⟩ | ⟨-, -, t, htracks, rfl⟩
  · exact ⟨rfl, rfl, rfl, rfl, rfl, rfl, rfl, List.prefix_rfl⟩
  · exact (processTracks_keeps _ htracks).trans (endTick_keeps t)

/-- The processing of track `i` emits events of that track alone (47_synthesis_bridge.md R162). -/
theorem processTrack_out {i : Fin numTracks} {s s' : State} (h : processTrack i s = .next s') :
    ∃ evs, s'.out = s.out ++ evs ∧ ∀ e ∈ evs, e.track = i := by
  obtain ⟨evs, hout, -, htrack⟩ := (processTrack_within h).1.out
  exact ⟨evs, hout, htrack⟩

/-- Settles O34: each track's processing appends events of its own index. -/
theorem tickEmitsInTrackOrder : Obligations.TickEmitsInTrackOrder := by
  unfold Obligations.TickEmitsInTrackOrder
  intro s s' h
  rcases tick_cases h with ⟨-, rfl⟩ | ⟨-, -, t, htracks, rfl⟩
  · exact ⟨[], [], [], [], by simp, by simp, by simp, by simp, by simp⟩
  · obtain ⟨s1, s2, s3, h0, h1, h2, h3⟩ := processTracks_four.mp htracks
    obtain ⟨e0, hout0, htrack0⟩ := processTrack_out h0
    obtain ⟨e1, hout1, htrack1⟩ := processTrack_out h1
    obtain ⟨e2, hout2, htrack2⟩ := processTrack_out h2
    obtain ⟨e3, hout3, htrack3⟩ := processTrack_out h3
    refine ⟨e0, e1, e2, e3, ?_, htrack0, htrack1, htrack2, htrack3⟩
    rw [← hout0, ← hout1, ← hout2, ← hout3]
    rfl

end Sys2Proof.Machine
end

section
/-! PROOFS. The invariant of one track through its processing (10_state.md section 2), together with a lower bound of what it
reads (20_memory.md R66): CUR, and the note list of a running arpeggio, stay at or past any offset they start at. First the
updates of a context, then the instructions, the loop and the event step that make them. -/
namespace Sys2Proof.Machine

/-- The invariant of a track context, with `lo` at most CUR and, while an arpeggio is active, at most ARPPTR. -/
structure Track.InvFrom (lo : Nat) (L : Word) (t : Track) : Prop where
  inv : t.Inv L
  cur_ge : lo ≤ t.cur.toNat
  list_ge : t.arpon = true → lo ≤ t.arpptr.toNat

theorem Track.InvFrom.zero {L : Word} {t : Track} (h : t.Inv L) : t.InvFrom 0 L := ⟨h, Nat.zero_le _, fun _ => Nat.zero_le _⟩

section updates
variable {lo : Nat} {L : Word} {t : Track}

/-- The invariant does not speak of the settings other than PAN, nor of PLAY. -/
theorem Track.InvFrom.silent (h : t.InvFrom lo L) {ch mode : BitVec 2} {vol atk dec sus rel arpspd : Byte} {play : Bool} :
    Track.InvFrom lo L { t with
      ch := ch, mode := mode, vol := vol, atk := atk, dec := dec, sus := sus, rel := rel, arpspd := arpspd, play := play } :=
  ⟨⟨h.inv.cur_le, h.inv.end_le, h.inv.pan_le, h.inv.ticks_le, h.inv.last_le, h.inv.segl_le, h.inv.segp_le,
    h.inv.arpptr_le, h.inv.arp_list, h.inv.halt_etl, h.inv.halt_fault⟩, h.cur_ge, h.list_ge⟩

theorem advanced_le {n : Nat} (hn : n ≤ t.avail) (hcur : t.cur.toNat ≤ t.endOff.toNat) :
    (t.advanced n).toNat ≤ t.endOff.toNat := by
  rw [advanced_toNat hn]
  unfold Track.avail at hn
  omega

/-- CUR moved on within the stream, PAN and SEGP set. -/
theorem Track.InvFrom.moved (h : t.InvFrom lo L) {n : Nat} (hn : n ≤ t.avail) {pan : BitVec 2} (hpan : pan.toNat ≤ 2)
    {segp : BitVec 9} (hsegp : segp.toNat ≤ 71) :
    Track.InvFrom lo L { t with cur := t.advanced n, pan := pan, segp := segp } :=
  ⟨⟨advanced_le hn h.inv.cur_le, h.inv.end_le, hpan, h.inv.ticks_le, h.inv.last_le, h.inv.segl_le, hsegp,
    h.inv.arpptr_le, h.inv.arp_list, h.inv.halt_etl, h.inv.halt_fault⟩,
    (advanced_toNat hn).symm ▸ Nat.le_add_right_of_le h.cur_ge, h.list_ge⟩

/-- A wait or a NOTE: an event of `ticks` without an arpeggio (46_waits.md R159, R160; 44_note_segment.md R145, R146). -/
theorem Track.InvFrom.event (h : t.InvFrom lo L) (hrun : t.halt = false) {n : Nat} (hn : n ≤ t.avail) {ticks : Half}
    (hticks : ticks.toNat ≤ 32831) {last : Byte} (hlast : last.toNat ≤ 87) {segl segp : BitVec 9}
    (hsegl : segl.toNat ≤ 71) (hsegp : segp.toNat ≤ 71) :
    Track.InvFrom lo L { t with
      last := last, etl := ticks, elap := 0, arpon := false, segl := segl, segp := segp, cur := t.advanced n } :=
  ⟨⟨advanced_le hn h.inv.cur_le, h.inv.end_le, h.inv.pan_le, hticks, hlast, hsegl, hsegp, h.inv.arpptr_le, nofun,
    fun hhalt => absurd (hrun.symm.trans hhalt) nofun, h.inv.halt_fault⟩,
    (advanced_toNat hn).symm ▸ Nat.le_add_right_of_le h.cur_ge, nofun⟩

/-- An ARP: an event of `ticks` with a note list of `k` bytes at `m` bytes past CUR (45_arpeggio.md R149 to R152). -/
theorem Track.InvFrom.arp (h : t.InvFrom lo L) (hrun : t.halt = false) {m k : Nat} (hn : m + k ≤ t.avail) {ticks : Half}
    (hticks : ticks.toNat ≤ 32831) (hmin : 2 ≤ k) (hmax : k ≤ 25) :
    Track.InvFrom lo L { t with
      arpptr := t.advanced m, arpon := true, last := BitVec.ofNat 8 k, etl := ticks, elap := 0, cur := t.advanced (m + k) } := by
  have hm : m ≤ t.avail := Nat.le_of_add_right_le hn
  have hptr := advanced_toNat hm
  have hcur := h.inv.cur_le
  have hlast : (BitVec.ofNat 8 k).toNat = k := by
    rw [BitVec.toNat_ofNat, Nat.mod_eq_of_lt (by omega)]
  have hbound : (t.advanced m).toNat + k ≤ t.endOff.toNat := by
    unfold Track.avail at hn
    omega
  refine ⟨⟨advanced_le hn hcur, h.inv.end_le, h.inv.pan_le, hticks, ?_, h.inv.segl_le, h.inv.segp_le, ?_, fun _ => ?_,
    fun hhalt => absurd (hrun.symm.trans hhalt) nofun, h.inv.halt_fault⟩, ?_, fun _ => ?_⟩
  · exact hlast.le.trans (hmax.trans (by decide))
  · exact Nat.le_of_add_right_le hbound
  · exact ⟨hmin.trans hlast.ge, (Nat.add_le_add_left hlast.le _).trans hbound⟩
  · exact (advanced_toNat hn).symm ▸ Nat.le_add_right_of_le h.cur_ge
  · exact hptr.symm ▸ Nat.le_add_right_of_le h.cur_ge

/-- The fault action (60_exceptions.md R174). -/
theorem Track.InvFrom.faulted (h : t.InvFrom lo L) {c : TrackFault} (hc : c ≠ .none) :
    Track.InvFrom lo L { t with halt := true, fault := c, etl := 0 } :=
  ⟨⟨h.inv.cur_le, h.inv.end_le, h.inv.pan_le, (Nat.zero_add _).le.trans (Nat.le_of_add_left_le h.inv.ticks_le),
    h.inv.last_le, h.inv.segl_le, h.inv.segp_le, h.inv.arpptr_le, h.inv.arp_list, fun _ => rfl, iff_of_true rfl hc⟩,
    h.cur_ge, h.list_ge⟩

/-- The counters of an event move against each other and do not wrap (42_tick_dispatcher.md R122). -/
theorem Track.Inv.counted_ticks (h : t.Inv L) (hetl : t.etl ≠ 0) :
    t.counted.etl.toNat = t.etl.toNat - 1 ∧ t.counted.elap.toNat = t.elap.toNat + 1 := by
  have hticks := h.ticks_le
  simp only [Track.counted]
  bv_omega

/-- The event step's update (42_tick_dispatcher.md R121, R122). -/
theorem Track.InvFrom.counted (h : t.InvFrom lo L) (hrun : t.halt = false) (hetl : t.etl ≠ 0) :
    t.counted.InvFrom lo L := by
  obtain ⟨hdown, hup⟩ := h.inv.counted_ticks hetl
  have hticks := h.inv.ticks_le
  have hpos := BitVec.toNat_pos_of_ne_zero hetl
  exact ⟨⟨h.inv.cur_le, h.inv.end_le, h.inv.pan_le, by omega, h.inv.last_le, h.inv.segl_le, h.inv.segp_le,
    h.inv.arpptr_le, h.inv.arp_list, fun hhalt => absurd (hrun.symm.trans hhalt) nofun, h.inv.halt_fault⟩,
    h.cur_ge, h.list_ge⟩

end updates

section processing
variable {lo : Nat} {L : Word} {s s' : State}

/-- What an outcome known to be a next state is. -/
theorem ResultIs.of_next {t : Track} {evs : List ToneEvent} (h : ResultIs (.next s') s t evs) :
    s'.track = t ∧ s'.out = s.out ++ evs ∧ SameElsewhere s s' := by
  obtain ⟨_, ⟨⟩, hresult⟩ := h
  exact hresult

theorem raiseFault_inv (h : s.track.InvFrom lo L) {c : TrackFault} (hc : c ≠ .none) :
    (raiseFault c s).track.InvFrom lo L := by
  rw [raiseFault_track]
  exact h.faulted hc

/-- Behind the truncation check only the effect matters. -/
theorem withBytes_inv (h : s.track.InvFrom lo L) {n : Nat} {f : State → State}
    (hf : n ≤ s.track.avail → (f s).track.InvFrom lo L) (hnext : withBytes n f s = .next s') : s'.track.InvFrom lo L := by
  unfold withBytes at hnext
  split at hnext
  · cases hnext
    exact hf ‹_›
  · cases hnext
    exact raiseFault_inv h (by decide)

theorem exec_note_inv {pitch : Byte} {l : LenField} (hwf : (Instr.note pitch l).wellFormed = true)
    (h : s.track.InvFrom lo L) (hrun : s.track.halt = false) (hnext : exec (.note pitch l) s = .next s') :
    s'.track.InvFrom lo L := by
  have hpitch : pitch.toNat < 88 := of_decide_eq_true hwf
  have hvalue := lenField_value_lt l
  have inv_of {t : Track} {evs : List ToneEvent} (ht : t.InvFrom lo L) (hresult : CompletesWith (.note pitch l) s t evs) :
      s'.track.InvFrom lo L := by
    rw [CompletesWith, hnext] at hresult
    rwa [hresult.of_next.1]
  rcases note_cases s.rom s.track pitch l with
    hcut | ⟨hbytes, hbad⟩ | ⟨hbytes, hsegl, f, hf⟩ | ⟨hbytes, hsegl, f0, f1, hf0, hf1⟩
  · exact inv_of (h.faulted (by decide)) (withBytes_takesFault hcut)
  · exact inv_of (h.faulted (by decide)) (noteTakesBadPitch s pitch l hbytes hbad)
  · exact inv_of (h.event hrun hbytes (by omega) (by omega) h.inv.segp_le (Nat.zero_le _))
      (plainNoteCompletes s pitch l f hbytes hsegl hf)
  · have hleft : (s.track.segl - 1).toNat ≤ 71 := by
      have hmax := h.inv.segl_le
      bv_omega
    exact inv_of (h.event hrun hbytes (by omega) (by omega) hleft h.inv.segp_le)
      (slideNoteCompletes s pitch l f0 f1 hbytes hsegl hf0 hf1)

/-- Every instruction that W4ON-L1 encodes keeps the invariant of its track. -/
theorem exec_inv {i : Instr} (hwf : i.wellFormed = true) (h : s.track.InvFrom lo L) (hready : s.track.ready = true)
    (hnext : exec i s = .next s') : s'.track.InvFrom lo L := by
  obtain ⟨-, hrun, hcur⟩ := ready_iff.mp hready
  have hone : 1 ≤ s.track.avail := Nat.sub_pos_of_lt hcur
  cases i with
  | note pitch l => exact exec_note_inv hwf h hrun hnext
  | lwait l =>
    have hvalue := lenField_value_lt l
    have hticks := lwaitTicks_toNat l
    refine withBytes_inv h (fun hbytes => ?_) hnext
    rw [startWait, setTrack_track]
    exact h.event hrun hbytes (by omega) h.inv.last_le h.inv.segl_le h.inv.segp_le
  | swait ticks =>
    have hticks : (ticks.setWidth 16).toNat ≤ 32831 := by
      rw [BitVec.toNat_setWidth]
      omega
    cases hnext
    rw [startWait, setTrack_track]
    exact h.event hrun hone hticks h.inv.last_le h.inv.segl_le h.inv.segp_le
  | seg n =>
    obtain ⟨-, hmax⟩ : 1 ≤ n.toNat ∧ n.toNat ≤ 71 := of_decide_eq_true hwf
    cases hnext
    rw [setTrack_track]
    exact h.moved hone h.inv.pan_le hmax
  | setpan c =>
    have hpan : c.toNat ≤ 2 := of_decide_eq_true hwf
    cases hnext
    rw [setField, setTrack_track]
    exact h.moved hone hpan h.inv.segp_le
  | arp l pitches =>
    obtain ⟨hmin, hmax⟩ := wellFormed_arp_iff.mp hwf
    have hvalue := lenField_value_lt l
    refine withBytes_inv h (fun hbytes => ?_) hnext
    rw [arpEffect, setTrack_track]
    exact h.arp hrun hbytes (by omega) hmin hmax
  | setvol | setatk | setdec | setsus | setrel | setarpspd =>
    refine withBytes_inv h (fun hbytes => ?_) hnext
    rw [setField, setTrack_track]
    exact (h.moved hbytes h.inv.pan_le h.inv.segp_le).silent

/-- An instruction decoded by W4ON-CORE is one that W4ON-L1 encodes. -/
theorem wellFormed_of_decode {bytes rest : List Byte} {i : Instr} (h : decode bytes = .ok (i, rest)) :
    i.wellFormed = true := (decodeIn_ok w4onL1_legal h).1

/-- Everything an undecodable window can do, other than a stop: skip one byte, or TRUNCATED_STREAM
(42_tick_dispatcher.md R116). -/
theorem undecoded_cases {e : DecodeError} (hnext : undecoded e s = .next s') :
    s' = s.setTrack { s.track with cur := s.track.advanced 1 } ∨ s' = raiseFault .truncatedStream s := by
  cases e with
  | unknownOpcode => cases hnext; exact .inl rfl
  | noByte | truncated =>
    right
    simp only [undecoded] at hnext
    split at hnext
    · split at hnext
      · cases hnext
      · cases hnext; rfl
    · cases hnext; rfl

theorem executeOne_inv (h : s.track.InvFrom lo L) (hready : s.track.ready = true) (hnext : executeOne s = .next s') :
    s'.track.InvFrom lo L := by
  unfold executeOne at hnext
  split at hnext
  · next i rest hdecode => exact exec_inv (wellFormed_of_decode hdecode) h hready hnext
  · rcases undecoded_cases hnext with rfl | rfl
    · obtain ⟨-, -, hcur⟩ := ready_iff.mp hready
      rw [setTrack_track]
      exact h.moved (Nat.sub_pos_of_lt hcur) h.inv.pan_le h.inv.segp_le
    · exact raiseFault_inv h (by decide)

theorem dispatchLoop_inv (n : Nat) (h : s.track.InvFrom lo L) (hnext : dispatchLoop n s = .next s') :
    s'.track.InvFrom lo L := by
  induction n generalizing s with
  | zero => cases hnext; exact h
  | succ n ih =>
    cases hready : s.track.ready with
    | false =>
      rw [dispatchLoop_of_not_ready hready] at hnext
      cases hnext
      exact h
    | true =>
      rw [dispatchLoop_succ_of_ready hready] at hnext
      obtain ⟨s1, hfirst, hrest⟩ := andThen_eq_next.mp hnext
      exact ih (executeOne_inv h hready hfirst) hrest

theorem eventStep_inv (h : s.track.InvFrom lo L) (hnext : eventStep s = .next s') : s'.track.InvFrom lo L := by
  rcases eventStep_cases hnext with ⟨-, rfl⟩ | ⟨hrun, hetl, ⟨c, hc, rfl⟩ | rfl | ⟨f, rfl⟩⟩
  · exact h
  · rw [raiseFault_markPlaying, setTrack_track]
    exact (h.faulted hc).silent
  · rw [countTick_markPlaying, setTrack_track]
    exact h.counted hrun hetl
  · rw [countTick_emitPlain_markPlaying, setTrack_track]
    exact h.counted hrun hetl

variable {i : Fin numTracks}

theorem beginTrack_inv (h : s.tracks[i].InvFrom lo L) : (beginTrack i s).track.InvFrom lo L := by
  rw [beginTrack_track]
  exact h.silent

theorem LoopLeaves.inv (h : s.tracks[i].InvFrom lo L) (hleaves : LoopLeaves i s s') : s'.track.InvFrom lo L :=
  dispatchLoop_inv _ (beginTrack_inv h) hleaves.2

/-- The processing of a track keeps its invariant. -/
theorem processTrack_inv (h : s.tracks[i].InvFrom lo L) (hnext : processTrack i s = .next s') :
    s'.tracks[i].InvFrom lo L := by
  rw [processTrack_track hnext]
  rcases processTrack_cases hnext with ⟨-, rfl⟩ | ⟨s2, hleaves, hstep⟩
  · exact beginTrack_inv h
  · exact eventStep_inv (hleaves.inv h) hstep

end processing

end Sys2Proof.Machine
end

section
/-! PROOFS. A track's processing depends on its own context, the ROM and the bytes it reads (20_memory.md R66): each piece of
it does the same, with the same events, in every state that agrees on these. Where a piece reads, its lemma asks for the
offset to be among those agreed on. -/
namespace Sys2Proof.Machine

/-- The two states have the same track being processed, the same context of it, the same ROM, and the same answer to each
read at an offset in `P`. -/
structure Agree (P : Nat → Prop) (s t : State) : Prop where
  track : t.track = s.track
  act : t.act = s.act
  rom : t.rom = s.rom
  reads : ∀ a, P a → memRead t a = memRead s a

/-- What `f` does in `s`, where it leads to `s'`, it does in every state that agrees with `s`: the same context, the same
events, and nothing elsewhere. -/
def Repeats (P : Nat → Prop) (f : State → Host.Outcome State Fault Refusal) (s s' : State) : Prop :=
  ∃ evs, ∀ t, Agree P s t → ResultIs (f t) t s'.track evs

/-- `f` writes the context of the track being processed, as a function of that context, and nothing else. -/
def Writes (f : State → State) : Prop := ∃ g : Track → Track, ∀ s, f s = s.setTrack (g s.track)

theorem id_writes : Writes id := ⟨id, fun s => (setTrack_self s).symm⟩
theorem raiseFault_writes (c : TrackFault) : Writes (raiseFault c) :=
  ⟨fun t => { t with halt := true, fault := c, etl := 0 }, fun _ => rfl⟩
theorem setField_writes (n : Nat) (f : Track → Track) : Writes (setField n f) :=
  ⟨fun t => { f t with cur := t.advanced n }, fun _ => rfl⟩
theorem startWait_writes (ticks : Half) (n : Nat) : Writes (startWait ticks n) :=
  ⟨fun t => { t with etl := ticks, elap := 0, arpon := false, cur := t.advanced n }, fun _ => rfl⟩
theorem arpEffect_writes (l : LenField) (pitches : List Byte) : Writes (arpEffect l pitches) :=
  ⟨fun t => { t with
    arpptr := t.advanced (1 + l.size), arpon := true, last := BitVec.ofNat 8 pitches.length, etl := l.value, elap := 0
    cur := t.advanced (1 + l.size + pitches.length) }, fun _ => rfl⟩

section repeats
variable {P : Nat → Prop} {s s' t : State}

theorem Agree.refl (P : Nat → Prop) (s : State) : Agree P s s := ⟨rfl, rfl, rfl, fun _ _ => rfl⟩

theorem SameElsewhere.memRead_eq (h : SameElsewhere s s') (a : Nat) : memRead s' a = memRead s a := by
  simp only [memRead, h.buflen, h.mem]

/-- States that agree go on agreeing after pieces that leave the same context. -/
theorem Agree.after {s1 t1 : State} (h : Agree P s t) (hs : SameElsewhere s s1) (ht : SameElsewhere t t1)
    (htrack : t1.track = s1.track) : Agree P s1 t1 where
  track := htrack
  act := by rw [ht.act, hs.act, h.act]
  rom := by rw [ht.rom, hs.rom, h.rom]
  reads a ha := by rw [ht.memRead_eq, hs.memRead_eq, h.reads a ha]

/-- A result in `s` that is the result in all agreeing states is what `f` repeats. -/
theorem Repeats.of_resultIs {f : State → Host.Outcome State Fault Refusal} {u : Track} {evs : List ToneEvent}
    (hself : ResultIs (f s) s u evs) (h : ∀ t, Agree P s t → ResultIs (f t) t u evs) (hnext : f s = .next s') :
    Repeats P f s s' := by
  rw [hnext] at hself
  obtain ⟨rfl, -, -⟩ := hself.of_next
  exact ⟨evs, h⟩

/-- A write of the context that looks at the context alone is repeated. -/
theorem Repeats.writes {op : State → Host.Outcome State Fault Refusal} {f : State → State} (hf : Writes f)
    (h : ∀ t, Agree P s t → op t = .next (f t)) (hnext : op s = .next s') : Repeats P op s s' := by
  obtain ⟨g, hg⟩ := hf
  have hresult : ∀ t, Agree P s t → ResultIs (op t) t (g s.track) [] := fun t ht => by
    rw [h t ht, hg, ht.track]
    exact resultIs_setTrack ..
  exact .of_resultIs (hresult s (.refl P s)) hresult hnext

/-- Pieces in a row repeat when each does. -/
theorem Repeats.andThen {f g : State → Host.Outcome State Fault Refusal} {s1 : State} (hf : Repeats P f s s1)
    (hs1 : f s = .next s1) (hg : Repeats P g s1 s') : Repeats P (fun t => andThen (f t) g) s s' := by
  obtain ⟨evs1, hf⟩ := hf
  obtain ⟨evs2, hg⟩ := hg
  have hself := hf s (.refl P s)
  rw [hs1] at hself
  obtain ⟨-, -, hsame⟩ := hself.of_next
  refine ⟨evs1 ++ evs2, fun t ht => ?_⟩
  obtain ⟨t1, ht1, htrack1, hout1, hsame1⟩ := hf t ht
  obtain ⟨t2, ht2, htrack2, hout2, hsame2⟩ := hg t1 (ht.after hsame hsame1 htrack1)
  refine ⟨t2, ?_, htrack2, ?_, hsame1.trans hsame2⟩
  · exact andThen_eq_next.mpr ⟨t1, ht1, ht2⟩
  · rw [hout2, hout1, List.append_assoc]

theorem withBytes_repeats {n : Nat} {f : State → State} (hf : Writes f) (hnext : withBytes n f s = .next s') :
    Repeats P (withBytes n f) s s' := by
  rcases Nat.lt_or_ge s.track.avail n with hcut | hbytes
  · exact .writes (raiseFault_writes _) (fun t ht => withBytes_of_lt (ht.track ▸ hcut)) hnext
  · exact .writes hf (fun t ht => withBytes_of_le (ht.track ▸ hbytes)) hnext

theorem exec_note_repeats {pitch : Byte} {l : LenField} (hnext : exec (.note pitch l) s = .next s') :
    Repeats P (exec (.note pitch l)) s s' := by
  rcases note_cases s.rom s.track pitch l with
    hcut | ⟨hbytes, hbad⟩ | ⟨hbytes, hsegl, f, hf⟩ | ⟨hbytes, hsegl, f0, f1, hf0, hf1⟩
  · exact .writes (raiseFault_writes _) (fun t ht => withBytes_of_lt (ht.track ▸ hcut)) hnext
  · refine .writes (raiseFault_writes .badPitch) (fun t ht => ?_) hnext
    rw [exec_note_of_le (ht.track ▸ hbytes), noteEffect_of_bad_pitch (ht.track ▸ hbad)]
  · refine .of_resultIs (plainNoteCompletes s pitch l f hbytes hsegl hf) (fun t ht => ?_) hnext
    rw [← ht.track, ← ht.act]
    rw [← ht.track] at hbytes hsegl
    rw [← ht.rom] at hf
    exact plainNoteCompletes t pitch l f hbytes hsegl hf
  · refine .of_resultIs (slideNoteCompletes s pitch l f0 f1 hbytes hsegl hf0 hf1) (fun t ht => ?_) hnext
    rw [← ht.track, ← ht.act]
    rw [← ht.track] at hbytes hsegl hf0
    rw [← ht.rom] at hf0 hf1
    exact slideNoteCompletes t pitch l f0 f1 hbytes hsegl hf0 hf1

/-- No instruction reads the buffer. -/
theorem exec_repeats {i : Instr} (hnext : exec i s = .next s') : Repeats P (exec i) s s' := by
  cases i with
  | note pitch l => exact exec_note_repeats hnext
  | swait ticks => exact .writes (startWait_writes ..) (fun _ _ => rfl) hnext
  | lwait l => exact withBytes_repeats (startWait_writes ..) hnext
  | seg n => exact .writes (setField_writes 1 (markSegments segMode n)) (fun _ _ => rfl) hnext
  | setpan c => exact .writes (setField_writes ..) (fun _ _ => rfl) hnext
  | arp l pitches => exact withBytes_repeats (arpEffect_writes ..) hnext
  | setvol | setatk | setdec | setsus | setrel | setarpspd => exact withBytes_repeats (setField_writes ..) hnext

/-- The window at CUR ends at or below END (30_encoding.md R80). -/
theorem window_le (t : Track) (h : t.cur.toNat ≤ t.endOff.toNat) : t.cur.toNat + t.window ≤ t.endOff.toNat := by
  unfold Track.window Track.avail
  omega

theorem readBytes_eq {a n : Nat} (h : ∀ x, a ≤ x → x < a + n → memRead t x = memRead s x) :
    readBytes t a n = readBytes s a n := by
  induction n generalizing a with
  | zero => rfl
  | succ n ih =>
    rw [readBytes, readBytes, h a le_rfl (by omega), ih fun x hlow hhigh => h x (by omega) (by omega)]

theorem Agree.fetch_eq (h : Agree P s t) (hready : s.track.ready = true)
    (hP : ∀ a, s.track.cur.toNat ≤ a → a < s.track.endOff.toNat → P a) : fetch t = fetch s := by
  obtain ⟨-, -, hcur⟩ := ready_iff.mp hready
  have hwindow := window_le s.track hcur.le
  rw [fetch, fetch, h.track]
  exact readBytes_eq fun x hlow hhigh => h.reads x (hP x hlow (by omega))

/-- An execution at CUR reads between CUR and END alone (30_encoding.md R80). -/
theorem executeOne_repeats (hready : s.track.ready = true)
    (hP : ∀ a, s.track.cur.toNat ≤ a → a < s.track.endOff.toNat → P a) (hnext : executeOne s = .next s') :
    Repeats P executeOne s s' := by
  cases hdecode : decode (fetch s) with
  | ok r =>
    obtain ⟨i, rest⟩ := r
    have hexec : ∀ t, Agree P s t → executeOne t = exec i t := fun t ht =>
      executeOne_of_decode (by rw [ht.fetch_eq hready hP, hdecode])
    obtain ⟨evs, hrepeat⟩ : Repeats P (exec i) s s' := exec_repeats ((hexec s (.refl P s)).symm.trans hnext)
    exact ⟨evs, fun t ht => hexec t ht ▸ hrepeat t ht⟩
  | error e =>
    have hundecoded : ∀ t, Agree P s t → executeOne t = undecoded e t := fun t ht => by
      simp only [executeOne, ht.fetch_eq hready hP, hdecode]
    rw [hundecoded s (.refl P s)] at hnext
    obtain ⟨evs, hrepeat⟩ : Repeats P (undecoded e) s s' := by
      have hcut : ∀ t, Agree P s t → (fetch s).length < s.track.window →
          memRead t (s.track.cur.toNat + (fetch s).length) = memRead s (s.track.cur.toNat + (fetch s).length) := by
        intro t ht hlt
        obtain ⟨-, -, hcur⟩ := ready_iff.mp hready
        have hwindow := window_le s.track hcur.le
        exact ht.reads _ (hP _ (Nat.le_add_right ..) (by omega))
      cases e with
      | unknownOpcode op => exact .writes (setField_writes 1 id) (fun _ _ => rfl) hnext
      | noByte | truncated =>
        refine .writes (raiseFault_writes .truncatedStream) (fun t ht => ?_) hnext
        simp only [undecoded, ht.fetch_eq hready hP, ht.track] at hnext ⊢
        split at hnext
        · next hlt =>
          rw [if_pos hlt, hcut t ht hlt]
          split at hnext
          · cases hnext
          · rfl
        · next hfull => rw [if_neg hfull]
    exact ⟨evs, fun t ht => hundecoded t ht ▸ hrepeat t ht⟩

/-- The dispatch loop reads between CUR and END alone, for CUR does not move back (42_tick_dispatcher.md R119). -/
theorem dispatchLoop_repeats (n : Nat) (hP : ∀ a, s.track.cur.toNat ≤ a → a < s.track.endOff.toNat → P a)
    (hnext : dispatchLoop n s = .next s') : Repeats P (dispatchLoop n) s s' := by
  induction n generalizing s with
  | zero => exact .writes id_writes (fun _ _ => rfl) hnext
  | succ n ih =>
    cases hready : s.track.ready with
    | false =>
      exact .writes id_writes (fun t ht => dispatchLoop_of_not_ready (ht.track ▸ hready)) hnext
    | true =>
      rw [dispatchLoop_succ_of_ready hready] at hnext
      obtain ⟨s1, hfirst, hrest⟩ := andThen_eq_next.mp hnext
      obtain ⟨hwithin, -, -⟩ := executeOne_cases hready hfirst
      have hP1 : ∀ a, s1.track.cur.toNat ≤ a → a < s1.track.endOff.toNat → P a := fun a hlow hhigh =>
        hP a (hwithin.cur.trans hlow) (hwithin.endOff ▸ hhigh)
      obtain ⟨evs, hrepeat⟩ := (executeOne_repeats hready hP hfirst).andThen hfirst (ih hP1 hrest)
      refine ⟨evs, fun t ht => ?_⟩
      rw [dispatchLoop_succ_of_ready (ht.track ▸ hready)]
      exact hrepeat t ht

/-- An arpeggio step that answers on a tick due has read a pitch of its list (45_arpeggio.md R153). -/
theorem arpStep_read (hspd : s.track.arpspd ≠ 0) (hdue : s.track.elap.toNat % s.track.arpspd.toNat = 0)
    (hnext : arpStep s = .next s') :
    s.track.last ≠ 0 ∧ ∃ p, memRead s (s.track.arpptr.toNat + s.track.arpIndex) = .ok p := by
  simp only [arpStep, if_neg hspd, hdue, ne_eq, not_true_eq_false, if_false] at hnext
  split at hnext
  · cases hnext
  · next hlast =>
    split at hnext
    · cases hnext
    · next p hread => exact ⟨hlast, p, hread⟩

/-- The event step of an arpeggio reads one byte of its note list, and no other event step reads (45_arpeggio.md R153). -/
theorem eventStep_repeats (hP : s.track.arpon = true → P (s.track.arpptr.toNat + s.track.arpIndex))
    (hnext : eventStep s = .next s') : Repeats P eventStep s s' := by
  by_cases hidle : s.track.halt = true ∨ s.track.etl = 0
  · exact .writes id_writes (fun t ht => eventStep_of_idle (ht.track ▸ hidle)) hnext
  obtain ⟨hhalt, hetl⟩ := not_or.mp hidle
  replace hhalt := Bool.eq_false_iff.mpr hhalt
  cases harp : s.track.arpon with
  | false =>
    refine .of_resultIs ((eventStepCounts s).1 hhalt hetl harp) (fun t ht => ?_) hnext
    rw [← ht.track]
    rw [← ht.track] at hhalt hetl harp
    exact (eventStepCounts t).1 hhalt hetl harp
  | true =>
    by_cases hspd : s.track.arpspd = 0
    · refine .of_resultIs ((arpeggioStepFaults s hhalt hetl harp).1 hspd) (fun t ht => ?_) hnext
      rw [← ht.track]
      rw [← ht.track] at hhalt hetl harp hspd
      exact (arpeggioStepFaults t hhalt hetl harp).1 hspd
    by_cases hdue : s.track.elap.toNat % s.track.arpspd.toNat = 0
    · have hread : s.track.last ≠ 0 ∧ ∃ p, memRead s (s.track.arpptr.toNat + s.track.arpIndex) = .ok p := by
        rw [eventStep_of_arpon hhalt hetl harp] at hnext
        obtain ⟨s1, hstep, -⟩ := andThen_eq_next.mp hnext
        have hmarked := arpStep_read (s := markPlaying s) (by rwa [markPlaying_track]) (by rwa [markPlaying_track]) hstep
        rwa [markPlaying_track, memRead_congr rfl rfl] at hmarked
      obtain ⟨hlast, p, hread⟩ := hread
      cases hf : freq s.rom p with
      | none =>
        refine .of_resultIs ((arpeggioStepFaults s hhalt hetl harp).2 hspd hdue hlast p (freq_eq_none.mp hf) hread)
          (fun t ht => ?_) hnext
        rw [← ht.reads _ (hP harp)] at hread
        rw [← ht.track]
        rw [← ht.track] at hhalt hetl harp hspd hdue hlast hread
        exact (arpeggioStepFaults t hhalt hetl harp).2 hspd hdue hlast p (freq_eq_none.mp hf) hread
      | some f =>
        refine .of_resultIs ((arpeggioStepRetriggers s hhalt hetl harp hspd).2 p f hdue hlast hread hf)
          (fun t ht => ?_) hnext
        rw [← ht.reads _ (hP harp)] at hread
        rw [← ht.track, ← ht.act]
        rw [← ht.rom] at hf
        rw [← ht.track] at hhalt hetl harp hspd hdue hlast hread
        exact (arpeggioStepRetriggers t hhalt hetl harp hspd).2 p f hdue hlast hread hf
    · refine .of_resultIs ((arpeggioStepRetriggers s hhalt hetl harp hspd).1 hdue) (fun t ht => ?_) hnext
      rw [← ht.track]
      rw [← ht.track] at hhalt hetl harp hspd hdue
      exact (arpeggioStepRetriggers t hhalt hetl harp hspd).1 hdue

end repeats

end Sys2Proof.Machine
end

section
/-! PROOFS. Tracks do not interact (10_state.md R21, 20_memory.md R66): the processing of a track repeats in every state with
the same context of it, and so it is in a TICK what it would be from the TICK's start, whichever tracks went before. -/
namespace Sys2Proof.Machine

/-- The two states have the same context of track `i`, the same ROM, and the same answer to each read at an offset in `P`. -/
structure AgreeAt (i : Fin numTracks) (P : Nat → Prop) (s t : State) : Prop where
  track : t.tracks[i] = s.tracks[i]
  rom : t.rom = s.rom
  reads : ∀ a, P a → memRead t a = memRead s a

/-- The processing of track `i` completes, with exactly the context `u` of that track and exactly the events `evs`, and leaves
everything else alone. -/
def TrackResult (i : Fin numTracks) (s : State) (u : Track) (evs : List ToneEvent) : Prop :=
  ∃ s', processTrack i s = .next s' ∧ s'.tracks[i] = u ∧ s'.out = s.out ++ evs ∧ SameElsewhere { s with act := i } s'

section processTrack
variable {i : Fin numTracks} {P : Nat → Prop} {s s' t : State}

theorem AgreeAt.refl (i : Fin numTracks) (P : Nat → Prop) (s : State) : AgreeAt i P s s := ⟨rfl, rfl, fun _ _ => rfl⟩

theorem AgreeAt.symm (h : AgreeAt i P s t) : AgreeAt i P t s := ⟨h.track.symm, h.rom.symm, fun a ha => (h.reads a ha).symm⟩

theorem beginTrack_memRead (i : Fin numTracks) (s : State) (a : Nat) : memRead (beginTrack i s) a = memRead s a :=
  memRead_congr rfl rfl a

theorem AgreeAt.beginTrack (h : AgreeAt i P s t) : Agree P (beginTrack i s) (beginTrack i t) where
  track := by rw [beginTrack_track, beginTrack_track, h.track]
  act := rfl
  rom := h.rom
  reads a ha := by rw [beginTrack_memRead, beginTrack_memRead, h.reads a ha]

theorem TrackResult.of_resultIs {u : Track} {evs : List ToneEvent}
    (h : ResultIs (processTrack i s) (beginTrack i s) u evs) : TrackResult i s u evs := by
  obtain ⟨s', hnext, htrack, hout, hsame⟩ := h
  exact ⟨s', hnext, (processTrack_track hnext).trans htrack, hout, (beginTrack_same i s).trans hsame⟩

/-- The processing of a track reads in its stream from CUR on, and in the note list of an arpeggio that its loop leaves. -/
theorem processTrack_repeats (hloop : ∀ a, s.tracks[i].cur.toNat ≤ a → a < s.tracks[i].endOff.toNat → P a)
    (harp : ∀ s2, LoopLeaves i s s2 → s2.track.arpon = true → P (s2.track.arpptr.toNat + s2.track.arpIndex))
    (hnext : processTrack i s = .next s') : ∃ evs, ∀ t, AgreeAt i P s t → TrackResult i t s'.tracks[i] evs := by
  rw [processTrack_track hnext]
  rcases processTrack_cases hnext with ⟨hhalt, rfl⟩ | ⟨s2, hleaves, hstep⟩
  · refine ⟨[], fun t ht => .of_resultIs ?_⟩
    rw [processTrack_of_halted (ht.track ▸ hhalt), ← ht.beginTrack.track]
    exact ⟨_, rfl, rfl, (List.append_nil _).symm, .refl _⟩
  · have hrepeat := dispatchLoop_repeats (P := P) _ (by simpa using hloop) hleaves.2
    obtain ⟨evs, hrepeat⟩ := hrepeat.andThen hleaves.2 (eventStep_repeats (harp s2 hleaves) hstep)
    refine ⟨evs, fun t ht => .of_resultIs ?_⟩
    have hagree := ht.beginTrack
    have hrunning : (beginTrack i t).track.halt = false := by
      rw [hagree.track, beginTrack_track]
      exact hleaves.1
    rw [processTrack_of_running hrunning, hagree.track]
    exact hrepeat _ hagree

end processTrack

/-- A retrigger reads inside the note list (45_arpeggio.md R153). -/
theorem Track.Inv.arpIndex_lt {L : Word} {t : Track} (h : t.Inv L) (harp : t.arpon = true) :
    t.arpptr.toNat + t.arpIndex < t.endOff.toNat := by
  obtain ⟨htwo, hlist⟩ := h.arp_list harp
  have hindex : t.arpIndex < t.last.toNat := Nat.mod_lt _ (by omega)
  omega

theorem LoopLeaves.endOff {i : Fin numTracks} {s s2 : State} (h : LoopLeaves i s s2) :
    s2.track.endOff = s.tracks[i].endOff := by
  have hkept := (dispatchLoop_cases _ h.2).1.endOff
  rwa [beginTrack_track] at hkept

/-- Below both lengths, a read answers what the buffer holds. -/
theorem memRead_eq_of_read {s t : State} {a : Nat} (hs : a < s.buflen.toNat) (ht : a < t.buflen.toNat)
    (hread : s.mem.read a = t.mem.read a) : memRead t a = memRead s a := by
  simp only [memRead, if_pos hs, if_pos ht, hread]

/-- Settles O36: what a track reads lies between `lo` and its END, by the invariant of its context. -/
theorem tracksDoNotInteract : Obligations.TracksDoNotInteract := by
  unfold Obligations.TracksDoNotInteract
  intro i s1 s2 s1' lo hinv1 hinv2 htrack hrom hcur hptr hbytes hnext
  have hfrom : s1.tracks[i].InvFrom lo s1.buflen := ⟨hinv1, hcur, hptr⟩
  obtain ⟨evs, hrepeat⟩ := processTrack_repeats (P := fun a => lo ≤ a ∧ a < s1.tracks[i].endOff.toNat)
    (fun a hlow hhigh => ⟨hcur.trans hlow, hhigh⟩)
    (fun s hleaves harp => by
      have hleft := hleaves.inv hfrom
      have hin := hleft.inv.arpIndex_lt harp
      rw [hleaves.endOff] at hin
      exact ⟨Nat.le_add_right_of_le (hleft.list_ge harp), hin⟩)
    hnext
  have hagree : AgreeAt i (fun a => lo ≤ a ∧ a < s1.tracks[i].endOff.toNat) s1 s2 :=
    ⟨htrack.symm, hrom.symm, fun a ⟨hlow, hhigh⟩ =>
      memRead_eq_of_read (hhigh.trans_le hinv1.end_le) (hhigh.trans_le (htrack ▸ hinv2.end_le)) (hbytes a hlow hhigh)⟩
  obtain ⟨t1, ht1, -, hout1, hsame1⟩ := hrepeat s1 (.refl i _ s1)
  obtain ⟨t2, ht2, htrack2, hout2, hsame2⟩ := hrepeat s2 hagree
  obtain rfl : t1 = s1' := Host.Outcome.next.inj (ht1.symm.trans hnext)
  exact ⟨t2, evs, ht2, htrack2, hout1, hout2, hsame1, hsame2⟩

/-- The state after the processing of one track agrees with the one before it at every other track. -/
theorem agreeAt_after_processTrack {i j : Fin numTracks} (hj : j ≠ i) {s s' : State} (h : processTrack i s = .next s')
    (P : Nat → Prop) : AgreeAt j P s s' := by
  have hkeeps := processTrack_keeps h
  exact ⟨processTrack_other hj h, hkeeps.rom, fun a _ => memRead_congr hkeeps.mem hkeeps.buflen a⟩

theorem filter_events_of_other {i j : Fin numTracks} (hij : i ≠ j) {evs : List ToneEvent} (h : ∀ e ∈ evs, e.track = j) :
    evs.filter (fun e => e.track == i) = [] :=
  List.filter_eq_nil_iff.mpr fun e he => by simpa [h e he] using hij.symm

theorem filter_events_of_self {i : Fin numTracks} {evs : List ToneEvent} (h : ∀ e ∈ evs, e.track = i) :
    evs.filter (fun e => e.track == i) = evs :=
  List.filter_eq_self.mpr fun e he => by simp [h e he]

theorem processTracks_out_filter {i : Fin numTracks} (l : List (Fin numTracks)) {s s' : State} (hi : i ∉ l)
    (h : processTracks l s = .next s') :
    s'.out.filter (fun e => e.track == i) = s.out.filter (fun e => e.track == i) := by
  induction l generalizing s with
  | nil => cases h; rfl
  | cons j rest ih =>
    obtain ⟨hji, hrest⟩ := not_or.mp (mt List.mem_cons.mpr hi)
    obtain ⟨s1, hfirst, hothers⟩ := andThen_eq_next.mp h
    obtain ⟨evs, hout, htrack⟩ := processTrack_out hfirst
    rw [ih hrest hothers, hout, List.filter_append, filter_events_of_other hji htrack, List.append_nil]

/-- `s'` shows the result of the processing of track `i` from `s`: its context, and its events among those of the track. -/
def ShowsTrack (i : Fin numTracks) (s s' : State) : Prop :=
  ∃ u evs, processTrack i s = .next u ∧ s'.tracks[i] = u.tracks[i] ∧ u.out = s.out ++ evs ∧
    s'.out.filter (fun e => e.track == i) = s.out.filter (fun e => e.track == i) ++ evs

/-- Each track processed once, the state afterwards shows what its processing does from the state before all of them. -/
theorem processTracks_shows {i : Fin numTracks} (l : List (Fin numTracks)) {s s' : State} (hl : l.Nodup) (hi : i ∈ l)
    (h : processTracks l s = .next s') : ShowsTrack i s s' := by
  induction l generalizing s with
  | nil => cases hi
  | cons j rest ih =>
    obtain ⟨hj, hrest⟩ := List.nodup_cons.mp hl
    obtain ⟨s1, hfirst, hothers⟩ := andThen_eq_next.mp h
    by_cases hij : i = j
    · subst hij
      obtain ⟨evs, hout, htrack⟩ := processTrack_out hfirst
      refine ⟨s1, evs, hfirst, processTracks_other rest hj hothers, hout, ?_⟩
      rw [processTracks_out_filter rest hj hothers, hout, List.filter_append, filter_events_of_self htrack]
    · obtain ⟨u, evs, hu, htrack, hout, hfilter⟩ := ih hrest ((List.mem_cons.mp hi).resolve_left hij) hothers
      have hagree := (agreeAt_after_processTrack hij hfirst fun _ => True).symm
      obtain ⟨evs', hrepeat⟩ := processTrack_repeats (fun _ _ _ => trivial) (fun _ _ _ => trivial) hu
      obtain ⟨u1, hu1, -, hout1, -⟩ := hrepeat s1 (.refl i _ s1)
      obtain ⟨u2, hu2, htrack2, hout2, -⟩ := hrepeat s hagree
      obtain rfl : u1 = u := Host.Outcome.next.inj (hu1.symm.trans hu)
      obtain rfl : evs' = evs := List.append_cancel_left (hout1.symm.trans hout)
      obtain ⟨evs1, hout3, htrack3⟩ := processTrack_out hfirst
      refine ⟨u2, evs', hu2, htrack.trans htrack2.symm, hout2, ?_⟩
      rw [hfilter, hout3, List.filter_append, filter_events_of_other hij htrack3, List.append_nil]

/-- After a TICK of an accepted song, each track is what its processing makes of it from the TICK's start. -/
theorem tick_shows {s s' : State} (hready : s.status = .ready) (h : tick s = .next s') (i : Fin numTracks) :
    ShowsTrack i s s' := by
  rcases tick_cases h with ⟨hidle, -⟩ | ⟨-, -, t, htracks, rfl⟩
  · exact absurd hready hidle
  · have hshows : ShowsTrack i s t := processTracks_shows [0, 1, 2, 3] (by decide) (by revert i; decide) htracks
    exact hshows

/-- The context of a track after a TICK of an accepted song. -/
theorem tick_track {s s' : State} (hready : s.status = .ready) (h : tick s = .next s') (i : Fin numTracks) :
    ∃ u, processTrack i s = .next u ∧ s'.tracks[i] = u.tracks[i] := by
  obtain ⟨u, -, hu, htrack, -⟩ := tick_shows hready h i
  exact ⟨u, hu, htrack⟩

/-- Settles O31: a track's processing keeps its header fields and does not move its cursor back. -/
theorem tickKeepsHeaderFields : Obligations.TickKeepsHeaderFields := by
  unfold Obligations.TickKeepsHeaderFields
  intro s s' h
  have hkeeps := tick_keeps h
  refine ⟨fun i => ?_, hkeeps.status, hkeeps.buflen, hkeeps.ntrk, hkeeps.rom, hkeeps.mem, hkeeps.bufWritten, hkeeps.cmds,
    hkeeps.out⟩
  by_cases hready : s.status = .ready
  · obtain ⟨u, hu, htrack⟩ := tick_track hready h i
    have hwithin := (processTrack_within hu).1
    have hch := hwithin.ch
    have hmode := hwithin.mode
    have hend := hwithin.endOff
    have hcur := hwithin.cur
    rw [beginTrack_track, ← processTrack_track hu, ← htrack] at hch hmode hend hcur
    exact ⟨hch, hmode, hend, hcur⟩
  · rw [tick_of_not_ready hready] at h
    cases h
    exact ⟨rfl, rfl, rfl, le_rfl⟩

/-- Settles O32: a halted track's processing is the clearing of its PLAY bit, and the other commands write no context. -/
theorem haltedTrackNeverRunsAgain : Obligations.HaltedTrackNeverRunsAgain := by
  unfold Obligations.HaltedTrackNeverRunsAgain
  intro s s' c i hhalt hrun hinit hreset
  refine ⟨?_, fun hother => ?_⟩
  · rintro ⟨rfl, hready⟩
    obtain ⟨u, hu, htrack⟩ := tick_track hready hrun i
    rw [processTrack_of_halted hhalt] at hu
    cases hu
    rw [htrack]
    exact beginTrack_track i s
  · cases c with
    | reset => exact absurd rfl hreset
    | init len => exact absurd rfl (hinit len)
    | place a b => cases hrun; rfl
    | readStatus => cases hrun; rfl
    | tick =>
      have hidle : tick s = .next s' := hrun
      rw [tick_of_not_ready (hother.resolve_left (not_not.mpr rfl))] at hidle
      cases hidle
      rfl

theorem tick_playing {s s' : State} (hready : s.status = .ready) (h : tick s = .next s') : s'.playing = anyPlaying s' := by
  rcases tick_cases h with ⟨hidle, -⟩ | ⟨-, -, t, -, rfl⟩
  · exact absurd hready hidle
  · rfl

/-- Settles O33: the track's processing from the TICK's start is its loop, then the fault of the arpeggio step; PLAY was set
before it. -/
theorem arpSpeedZeroTickStillPlays : Obligations.ArpSpeedZeroTickStillPlays := by
  unfold Obligations.ArpSpeedZeroTickStillPlays
  intro s s2 s' i hready h hleaves hhalt hetl harp hspd
  obtain ⟨u, hu, htrack⟩ := tick_track hready h i
  have hstep : eventStep s2 = .next u := by
    rcases processTrack_cases hu with ⟨hhalted, -⟩ | ⟨s3, hleaves3, hstep⟩
    · exact absurd (hleaves.1.symm.trans hhalted) nofun
    · rwa [hleaves.unique hleaves3] at hstep
  have hfault := (arpeggioStepFaults s2 hhalt hetl harp).1 hspd
  rw [hstep] at hfault
  have htrack' : s'.tracks[i] = { s2.track with play := true, halt := true, fault := .arpSpeedZero, etl := 0 } := by
    rw [htrack, processTrack_track hu, hfault.of_next.1]
  have hplaying : s'.playing = true := by
    rw [tick_playing hready h, anyPlaying_iff]
    exact ⟨i, by rw [htrack']⟩
  have hreplies := (tickReportsPlayingTracks s s' hready h).2.1
  rw [hplaying] at hreplies
  exact ⟨htrack', hplaying, hreplies⟩

end Sys2Proof.Machine
end

section
/-! PROOFS. A TICK completes while the host keeps its duties (42_tick_dispatcher.md R119, R124; 70_reset_and_hazards.md R195,
R196): what a track reads lies before its END, its END within BUFLEN, and every byte below BUFLEN was placed. -/
namespace Sys2Proof.Machine

/-- Every read below BUFLEN answers a byte (70_reset_and_hazards.md R195). -/
def Readable (s : State) : Prop := ∀ a, a < s.buflen.toNat → ∃ b, memRead s a = .ok b

theorem HostKeepsDuties.readable {s : State} (h : HostKeepsDuties s) : Readable s := fun a ha => by
  obtain ⟨b, hb⟩ := Option.isSome_iff_exists.mp (h.2 a ha)
  exact ⟨b, memRead_ok.mpr ⟨ha, hb⟩⟩

section processing
variable {s s' : State}

theorem Readable.of_same (h : Readable s) (hsame : SameElsewhere s s') : Readable s' := fun a ha => by
  obtain ⟨b, hb⟩ := h a (hsame.buflen ▸ ha)
  exact ⟨b, (hsame.memRead_eq a).trans hb⟩

/-- An execution at CUR finds all bytes of its window, so it does not stop (42_tick_dispatcher.md R116). -/
theorem executeOne_completes (hread : Readable s) (hready : s.track.ready = true)
    (hend : s.track.endOff.toNat ≤ s.buflen.toNat) : ∃ s', executeOne s = .next s' := by
  obtain ⟨-, -, hcur⟩ := ready_iff.mp hready
  have hwindow := window_le s.track hcur.le
  have hfull : (fetch s).length = s.track.window := readBytes_full fun x _ hx => hread x (by omega)
  cases hdecode : decode (fetch s) with
  | ok r =>
    obtain ⟨s', hexec, -⟩ := exec_effect r.1 s
    exact ⟨s', (executeOne_of_decode hdecode).trans hexec⟩
  | error e =>
    simp only [executeOne, hdecode]
    cases e with
    | unknownOpcode op => exact ⟨_, rfl⟩
    | noByte | truncated =>
      simp only [undecoded, if_neg (Nat.not_lt.mpr hfull.ge)]
      exact ⟨_, rfl⟩

theorem dispatchLoop_completes (n : Nat) (hread : Readable s) (hend : s.track.endOff.toNat ≤ s.buflen.toNat) :
    ∃ s', dispatchLoop n s = .next s' := by
  induction n generalizing s with
  | zero => exact ⟨s, rfl⟩
  | succ n ih =>
    cases hready : s.track.ready with
    | false => exact ⟨s, dispatchLoop_of_not_ready hready⟩
    | true =>
      obtain ⟨s1, hfirst⟩ := executeOne_completes hread hready hend
      have hwithin := (executeOne_cases hready hfirst).1
      obtain ⟨s', hrest⟩ := ih (hread.of_same hwithin.same) (by rwa [hwithin.endOff, hwithin.same.buflen])
      exact ⟨s', by rw [dispatchLoop_succ_of_ready hready, hfirst]; exact hrest⟩

/-- The arpeggio step finds its pitch in the note list (45_arpeggio.md R153). -/
theorem arpStep_completes (hread : Readable s) (hinv : s.track.Inv s.buflen) (harp : s.track.arpon = true) :
    ∃ s', arpStep s = .next s' := by
  by_cases hspd : s.track.arpspd = 0
  · exact ⟨_, arpStep_of_speed_zero hspd⟩
  by_cases hdue : s.track.elap.toNat % s.track.arpspd.toNat = 0
  · obtain ⟨htwo, -⟩ := hinv.arp_list harp
    have hlast : s.track.last ≠ 0 := fun hzero => by simp [hzero] at htwo
    obtain ⟨p, hp⟩ := hread _ ((hinv.arpIndex_lt harp).trans_le hinv.end_le)
    exact ⟨_, arpStep_of_due hspd hdue hlast hp⟩
  · exact ⟨_, arpStep_of_not_due hspd hdue⟩

theorem eventStep_completes (hread : Readable s) (hinv : s.track.Inv s.buflen) : ∃ s', eventStep s = .next s' := by
  by_cases hidle : s.track.halt = true ∨ s.track.etl = 0
  · exact ⟨s, eventStep_of_idle hidle⟩
  obtain ⟨hhalt, hetl⟩ := not_or.mp hidle
  replace hhalt := Bool.eq_false_iff.mpr hhalt
  cases harp : s.track.arpon with
  | false => exact ⟨_, eventStep_of_no_arp hhalt hetl harp⟩
  | true =>
    have hmarked : (markPlaying s).track.Inv (markPlaying s).buflen := by
      rw [markPlaying_track]
      exact (Track.InvFrom.zero hinv).silent.inv
    obtain ⟨s1, hstep⟩ := arpStep_completes (s := markPlaying s) (hread.of_same (setTrack_same ..)) hmarked
      (by rwa [markPlaying_track])
    rw [eventStep_of_arpon hhalt hetl harp, hstep, andThen_next, countUnlessHalted]
    split
    · exact ⟨_, rfl⟩
    · exact ⟨_, rfl⟩

theorem Readable.beginTrack (h : Readable s) (i : Fin numTracks) : Readable (beginTrack i s) := fun a ha => by
  obtain ⟨b, hb⟩ := h a ha
  exact ⟨b, (beginTrack_memRead i s a).trans hb⟩

theorem dispatchLoop_of_beginTrack_completes {i : Fin numTracks} (hread : Readable s) (hinv : s.tracks[i].Inv s.buflen)
    (hrun : s.tracks[i].halt = false) : ∃ s2, LoopLeaves i s s2 := by
  have hend : (beginTrack i s).track.endOff.toNat ≤ (beginTrack i s).buflen.toNat := by
    rw [beginTrack_track]
    exact hinv.end_le
  obtain ⟨s2, hloop⟩ := dispatchLoop_completes _ (hread.beginTrack i) hend
  exact ⟨s2, hrun, hloop⟩

theorem LoopLeaves.same {i : Fin numTracks} {s2 : State} (h : LoopLeaves i s s2) : SameElsewhere (beginTrack i s) s2 :=
  (dispatchLoop_cases _ h.2).1.same

theorem LoopLeaves.processTrack_eq {i : Fin numTracks} {s2 : State} (h : LoopLeaves i s s2) :
    processTrack i s = eventStep s2 := by
  have hrun : (Machine.beginTrack i s).track.halt = false := by
    rw [beginTrack_track]
    exact h.1
  rw [processTrack_of_running hrun, h.2, andThen_next]

theorem processTrack_completes (i : Fin numTracks) (hread : Readable s) (hinv : s.tracks[i].Inv s.buflen) :
    ∃ s', processTrack i s = .next s' := by
  cases hrun : s.tracks[i].halt with
  | true => exact ⟨_, processTrack_of_halted hrun⟩
  | false =>
    obtain ⟨s2, hleaves⟩ := dispatchLoop_of_beginTrack_completes hread hinv hrun
    have hinv2 := (hleaves.inv (.zero hinv)).inv
    rw [← beginTrack_buflen i s, ← hleaves.same.buflen] at hinv2
    obtain ⟨s', hstep⟩ := eventStep_completes ((hread.beginTrack i).of_same hleaves.same) hinv2
    exact ⟨s', hleaves.processTrack_eq.trans hstep⟩

/-- The invariant of all four contexts. -/
def TracksInv (s : State) : Prop := ∀ i : Fin numTracks, s.tracks[i].Inv s.buflen

theorem processTrack_tracksInv {i : Fin numTracks} (h : TracksInv s) (hnext : processTrack i s = .next s') :
    TracksInv s' := fun j => by
  rw [(processTrack_keeps hnext).buflen]
  by_cases hj : j = i
  · subst hj
    exact (processTrack_inv (.zero (h j)) hnext).inv
  · rw [processTrack_other hj hnext]
    exact h j

theorem Readable.of_keeps (h : Readable s) (hkeeps : TickKeeps s s') : Readable s' := fun a ha => by
  obtain ⟨b, hb⟩ := h a (hkeeps.buflen ▸ ha)
  exact ⟨b, (memRead_congr hkeeps.mem hkeeps.buflen a).trans hb⟩

theorem processTracks_completes (l : List (Fin numTracks)) (hread : Readable s) (hinv : TracksInv s) :
    ∃ s', processTracks l s = .next s' := by
  induction l generalizing s with
  | nil => exact ⟨s, rfl⟩
  | cons i rest ih =>
    obtain ⟨s1, hfirst⟩ := processTrack_completes i hread (hinv i)
    obtain ⟨s', hrest⟩ := ih (hread.of_keeps (processTrack_keeps hfirst)) (processTrack_tracksInv hinv hfirst)
    exact ⟨s', andThen_eq_next.mpr ⟨s1, hfirst, hrest⟩⟩

end processing

/-- Settles O40: the four tracks are processed, each from a state that still meets the track invariant. -/
theorem tickCompletesUnderTheHostsDuties : Obligations.TickCompletesUnderTheHostsDuties := by
  unfold Obligations.TickCompletesUnderTheHostsDuties
  intro s hinv hduties
  by_cases hready : s.status = .ready
  · obtain ⟨t, htracks⟩ := processTracks_completes [0, 1, 2, 3] hduties.readable hinv.tracks
    exact ⟨endTick t, by rw [tick_of_ready hready hduties.1, htracks, andThen_next]⟩
  · exact ⟨_, tick_of_not_ready hready⟩

end Sys2Proof.Machine
end

section
/-! PROOFS. The end of playback (42_tick_dispatcher.md R126): a track whose event step did not run in a TICK is halted or has
exhausted its stream, and then nothing happens to it in any later TICK. -/
namespace Sys2Proof.Machine

/-- A track that will not play again: halted, or without an event and at the end of its stream. -/
def Track.Idle (t : Track) : Prop := t.halt = true ∨ (t.etl = 0 ∧ t.endOff.toNat ≤ t.cur.toNat)

section idle
variable {i : Fin numTracks} {s s' : State}

theorem Track.Idle.not_ready {t : Track} (h : t.Idle) : t.ready = false := by
  rw [← Bool.not_eq_true, ready_iff]
  rintro ⟨-, hrun, hcur⟩
  rcases h with hhalt | ⟨-, hend⟩
  · exact absurd (hrun.symm.trans hhalt) nofun
  · exact absurd hcur (Nat.not_lt.mpr hend)

/-- The processing of an idle track only clears its PLAY. -/
theorem processTrack_of_idle (h : s.tracks[i].Idle) : processTrack i s = .next (beginTrack i s) := by
  by_cases hhalt : s.tracks[i].halt = true
  · exact processTrack_of_halted hhalt
  obtain ⟨hetl, hend⟩ := h.resolve_left hhalt
  have hidle : (beginTrack i s).track.Idle := by
    rw [beginTrack_track]
    exact .inr ⟨hetl, hend⟩
  have hetl' : (beginTrack i s).track.etl = 0 := by rw [beginTrack_track, hetl]
  have hleaves : LoopLeaves i s (beginTrack i s) :=
    ⟨Bool.eq_false_iff.mpr hhalt, dispatchLoop_of_not_ready hidle.not_ready⟩
  rw [hleaves.processTrack_eq, eventStep_of_idle (.inr hetl')]

/-- A track that does not play in its processing is idle after it (42_tick_dispatcher.md R119). -/
theorem processTrack_idle (h : processTrack i s = .next s') (hplay : s'.tracks[i].play = false) : s'.tracks[i].Idle := by
  rw [processTrack_track h] at hplay ⊢
  rcases processTrack_cases h with ⟨hhalt, rfl⟩ | ⟨s2, hleaves, hstep⟩
  · rw [beginTrack_track]
    exact .inl hhalt
  · have hplay2 : s2.track.play = false := by
      have hkept := (dispatchLoop_cases _ hleaves.2).2.1
      rwa [beginTrack_track] at hkept
    have hnone := mt (eventStep_play hplay2 hstep).mpr (Bool.eq_false_iff.mp hplay)
    rcases eventStep_cases hstep with ⟨hidle, rfl⟩ | ⟨hrun, hetl, -⟩
    · rcases dispatchLoopDrains _ _ hleaves.2 with hetl | hhalt | hend
      · exact .inl (hidle.resolve_right hetl)
      · exact .inl hhalt
      · exact hidle.imp_right fun hetl => ⟨hetl, hend⟩
    · exact absurd ⟨hrun, hetl⟩ hnone

end idle

/-- No track plays, and none will. -/
structure Ended (s : State) : Prop where
  status : s.status = .ready
  bufWritten : s.bufWritten = false
  act : s.act = 0
  playing : s.playing = false
  idle : ∀ i : Fin numTracks, s.tracks[i].play = false ∧ s.tracks[i].Idle

/-- A TICK that returns 0 is the end of playback. -/
theorem ended_of_tick {s s' : State} (hready : s.status = .ready) (h : tick s = .next s') (hplaying : s'.playing = false) :
    Ended s' := by
  have hkeeps := tick_keeps h
  have hwritten : s.bufWritten = false ∧ s'.act = 0 := by
    rcases tick_cases h with ⟨hidle, -⟩ | ⟨-, hwritten, t, -, rfl⟩
    · exact absurd hready hidle
    · exact ⟨hwritten, rfl⟩
  refine ⟨hkeeps.status.trans hready, hkeeps.bufWritten.trans hwritten.1, hwritten.2, hplaying, fun i => ?_⟩
  have hplay : s'.tracks[i].play = false := Bool.eq_false_iff.mpr fun hplay => by
    have hany := (tick_playing hready h).symm.trans hplaying
    rw [anyPlaying_iff.mpr ⟨i, hplay⟩] at hany
    cases hany
  obtain ⟨u, hu, htrack⟩ := tick_track hready h i
  rw [htrack] at hplay ⊢
  exact ⟨hplay, processTrack_idle hu hplay⟩

theorem tracks_ext {s s' : State} (h : ∀ i : Fin numTracks, s'.tracks[i] = s.tracks[i]) : s'.tracks = s.tracks :=
  Vector.ext fun i hi => h ⟨i, hi⟩

/-- Beginning a track whose PLAY is clear changes `act` alone. -/
theorem beginTrack_of_not_playing {i : Fin numTracks} {s : State} (h : s.tracks[i].play = false) :
    beginTrack i s = { s with act := i } := by
  have hown : { s.tracks[i] with play := false } = s.tracks[i] := by rw [← h]
  have htracks : (beginTrack i s).tracks = s.tracks := tracks_ext fun j => by
    by_cases hj : j = i
    · subst hj
      exact (beginTrack_track j s).trans hown
    · exact beginTrack_other i s j hj
  exact State.eq_of_fields rfl rfl rfl rfl htracks rfl rfl rfl rfl rfl rfl rfl

/-- The processing of tracks that all are idle and do not play changes `act` alone. -/
theorem processTracks_of_idle (l : List (Fin numTracks)) {s : State}
    (h : ∀ i : Fin numTracks, s.tracks[i].play = false ∧ s.tracks[i].Idle) :
    ∃ j, processTracks l s = .next { s with act := j } := by
  induction l generalizing s with
  | nil => exact ⟨s.act, rfl⟩
  | cons i rest ih =>
    obtain ⟨hplay, hidle⟩ := h i
    rw [processTracks, processTrack_of_idle hidle, andThen_next, beginTrack_of_not_playing hplay]
    exact ih (s := { s with act := i }) h

/-- After the end of playback a TICK only returns its 0. -/
theorem tick_of_ended {s : State} (h : Ended s) : tick s = .next { s with replies := s.replies ++ [.tick false] } := by
  obtain ⟨j, htracks⟩ := processTracks_of_idle [0, 1, 2, 3] h.idle
  have hnone : anyPlaying s = false := Bool.eq_false_iff.mpr fun hany => by
    obtain ⟨i, hplay⟩ := anyPlaying_iff.mp hany
    exact absurd ((h.idle i).1.symm.trans hplay) nofun
  have hend : endTick { s with act := j } = { s with replies := s.replies ++ [.tick false] } :=
    State.eq_of_fields rfl rfl rfl (hnone.trans h.playing.symm) rfl rfl rfl rfl h.act.symm rfl rfl
      (congrArg (fun b => s.replies ++ [Reply.tick b]) hnone)
  rw [tick_of_ready h.status h.bufWritten, htracks, andThen_next, hend]

/-- After the end of playback every TICK only returns its 0. -/
theorem ticks_of_ended (n : Nat) {s : State} (h : Ended s) :
    ticks n s = .next { s with replies := s.replies ++ List.replicate n (.tick false) } := by
  induction n generalizing s with
  | zero => rw [List.replicate_zero, List.append_nil]; rfl
  | succ n ih =>
    have hnext : Ended { s with replies := s.replies ++ [.tick false] } := ⟨h.status, h.bufWritten, h.act, h.playing, h.idle⟩
    rw [ticks, tick_of_ended h, andThen_next, ih hnext, List.replicate_succ, List.append_assoc, List.singleton_append]

/-- Settles O37: a TICK that returns 0 is the end of playback. -/
theorem endOfPlaybackIsFinal : Obligations.EndOfPlaybackIsFinal := by
  unfold Obligations.EndOfPlaybackIsFinal
  intro s s' hready h hplaying n
  have hended := ended_of_tick hready h hplaying
  exact ⟨_, ticks_of_ended n hended, rfl, hended.playing, rfl⟩

end Sys2Proof.Machine
end

section
/-! PROOFS. The bound on the events of a TICK (70_reset_and_hazards.md R202): a track emits at most one event for each byte it
moves on, and one in its event step; the streams lie apart, so the bytes of all are at most BUFLEN. -/
namespace Sys2Proof.Machine

/-- In its processing a track moves on by at most the bytes before END. -/
theorem processTrack_cur_le {i : Fin numTracks} {s s' : State} (h : processTrack i s = .next s') :
    s'.track.cur.toNat ≤ s.tracks[i].cur.toNat + s.tracks[i].avail := by
  rcases Nat.lt_or_ge s.tracks[i].endOff.toNat s.tracks[i].cur.toNat with hpast | hcur
  · have hstays : s'.track.cur = (beginTrack i s).track.cur := by
      rcases processTrack_cases h with ⟨-, rfl⟩ | ⟨s2, hleaves, hstep⟩
      · rfl
      · have hready : ¬ (beginTrack i s).track.ready = true := fun hready => by
          have hlt := (ready_iff.mp hready).2.2
          rw [beginTrack_track] at hlt
          exact Nat.lt_asymm hlt hpast
        have hloop := dispatchLoop_of_not_ready (n := (beginTrack i s).track.avail) (Bool.eq_false_iff.mpr hready)
        cases hleaves.2.symm.trans hloop
        exact (eventStep_within hstep).2
    rw [hstays, beginTrack_track]
    exact Nat.le_add_right ..
  · have hend := (processTrack_within h).2 hcur
    unfold Track.avail
    omega

theorem processTrack_out_length {i : Fin numTracks} {s s' : State} (h : processTrack i s = .next s') :
    s'.out.length ≤ s.out.length + s.tracks[i].avail + 1 := by
  obtain ⟨evs, hout, hcount, -⟩ := (processTrack_within h).1.out
  have hcur := processTrack_cur_le h
  have hlength : s'.out.length = s.out.length + evs.length := by rw [hout, List.length_append, beginTrack_out]
  rw [beginTrack_track] at hcount
  dsimp only at hcount
  omega

/-- The bytes before END of all four tracks. -/
def totalAvail (s : State) : Nat :=
  s.tracks[(0 : Fin numTracks)].avail + s.tracks[(1 : Fin numTracks)].avail + s.tracks[(2 : Fin numTracks)].avail +
    s.tracks[(3 : Fin numTracks)].avail

/-- The four tracks' bounds, each by the context from which the TICK starts. -/
theorem processTracks_out_length {s s' : State} (h : processTracks [0, 1, 2, 3] s = .next s') :
    s'.out.length ≤ s.out.length + totalAvail s + 4 := by
  obtain ⟨s1, s2, s3, h0, h1, h2, h3⟩ := processTracks_four.mp h
  have hlen0 := processTrack_out_length h0
  have hlen1 := processTrack_out_length h1
  have hlen2 := processTrack_out_length h2
  have hlen3 := processTrack_out_length h3
  rw [processTrack_other (j := 1) (by decide) h0] at hlen1
  rw [processTrack_other (j := 2) (by decide) h1, processTrack_other (j := 2) (by decide) h0] at hlen2
  rw [processTrack_other (j := 3) (by decide) h2, processTrack_other (j := 3) (by decide) h1,
    processTrack_other (j := 3) (by decide) h0] at hlen3
  unfold totalAvail
  omega

/-- Intervals in order below `L`, empty from the `n`-th on, are together at most `L` long. -/
theorem sum_sub_le_of_ordered {c e : Fin 4 → Nat} {n L : Nat} (hend : ∀ i, e i ≤ L)
    (hempty : ∀ i, n ≤ i.val → e i = 0) (hcur : ∀ i, c i ≤ e i)
    (horder : ∀ i j : Fin 4, i.val < j.val → j.val < n → e i ≤ c j) :
    e 0 - c 0 + (e 1 - c 1) + (e 2 - c 2) + (e 3 - c 3) ≤ L := by
  have empty1 : n ≤ 1 → e 1 = 0 := hempty 1
  have empty2 : n ≤ 2 → e 2 = 0 := hempty 2
  have empty3 : n ≤ 3 → e 3 = 0 := hempty 3
  have order1 : 1 < n → e 0 ≤ c 1 := horder 0 1 (by decide)
  have order2 : 2 < n → e 1 ≤ c 2 := horder 1 2 (by decide)
  have order3 : 3 < n → e 2 ≤ c 3 := horder 2 3 (by decide)
  have end0 := hend 0
  have end1 := hend 1
  have end2 := hend 2
  have end3 := hend 3
  have cur0 := hcur 0
  have cur1 := hcur 1
  have cur2 := hcur 2
  omega

/-- Streams in order lie side by side below BUFLEN, and an unused one is empty (20_memory.md R66, 41_init_parser.md R107). -/
theorem totalAvail_le {s : State} (hinv : Inv s) (horder : StreamsInOrder s) : totalAvail s ≤ s.buflen.toNat :=
  sum_sub_le_of_ordered (fun i => (hinv.tracks i).end_le) (fun i hi => by rw [hinv.unused i hi]; rfl)
    (fun i => (hinv.tracks i).cur_le) horder

/-- Settles O35: one track by its own bytes, the TICK by the bytes of all streams. -/
theorem tickEmissionIsBounded : Obligations.TickEmissionIsBounded := by
  unfold Obligations.TickEmissionIsBounded
  refine ⟨fun i s s' h => processTrack_out_length h, fun s s' hinv horder h => ?_⟩
  rcases tick_cases h with ⟨-, rfl⟩ | ⟨-, -, t, htracks, rfl⟩
  · exact (Nat.le_add_right ..).trans (Nat.le_add_right ..)
  · have hlength := processTracks_out_length htracks
    have hsum := totalAvail_le hinv horder
    have hout : (endTick t).out = t.out := rfl
    rw [hout]
    omega

end Sys2Proof.Machine
end

section
/-! PROOFS. INIT on the bytes of a song (41_init_parser.md R102 to R109). One lemma for each thing that can be found at an
offset: a header with its whole stream inside the song, one that `len` cuts short, and a size of 0; the headers of a song are
then parsed one after the other. -/
namespace Sys2Proof.Machine

/-- The buffer holds the byte of `bytes` at each offset from `p` on that is below `lim`. -/
def BytesAt (m : Memory) (p : Nat) (bytes : List Byte) (lim : Nat) : Prop :=
  ∀ k, k < bytes.length → p + k < lim → m.read (p + k) = bytes[k]?

section bytesAt
variable {m : Memory} {p lim : Nat} {xs ys : List Byte}

theorem BytesAt.of_placed (h : Placed m xs lim) : BytesAt m 0 xs lim := fun k hk hlim => by
  rw [Nat.zero_add] at hlim ⊢
  exact h k hlim hk

theorem BytesAt.left (h : BytesAt m p (xs ++ ys) lim) : BytesAt m p xs lim := fun k hk hlim => by
  rw [h k (by rw [List.length_append]; omega) hlim, List.getElem?_append_left hk]

theorem BytesAt.right (h : BytesAt m p (xs ++ ys) lim) : BytesAt m (p + xs.length) ys lim := fun k hk hlim => by
  rw [Nat.add_assoc] at hlim ⊢
  rw [h _ (by rw [List.length_append]; omega) hlim, List.getElem?_append_right (Nat.le_add_right ..), Nat.add_sub_cancel_left]

/-- Reading one of the bytes placed. -/
theorem BytesAt.memRead {s : State} {b : Byte} (h : BytesAt s.mem p xs lim) (k : Nat) (hb : xs[k]? = some b)
    (hlim : p + k < lim) (hlen : p + k < s.buflen.toNat) : memRead s (p + k) = .ok b :=
  memRead_ok.mpr ⟨hlen, (h k (List.getElem?_eq_some_iff.mp hb).1 hlim).trans hb⟩

end bytesAt

theorem readSize_of_bytes {s : State} {p : Nat} {hi lo : Byte} (hhi : memRead s p = .ok hi)
    (hlo : memRead s (p + 1) = .ok lo) : readSize s p = .ok (hi.toNat * 256 + lo.toNat) := by
  simp only [readSize, hhi, hlo, toNat_append_add, Nat.reducePow]

/-- The bytes a track's header and stream take. -/
theorem trackBytes_length (flags : Byte) (stream : List Byte) : (trackBytes flags stream).length = stream.length + 3 := by
  simp [trackBytes]

/-- The size field of a track reads back as the length of its flags byte and stream (41_init_parser.md R103). -/
theorem readSize_trackBytes {s : State} {p lim : Nat} {flags : Byte} {stream : List Byte} (hstream : stream.length ≤ 65534)
    (hbytes : BytesAt s.mem p (trackBytes flags stream) lim) (hlim : p + 1 < lim) (hlen : p + 1 < s.buflen.toNat) :
    readSize s p = .ok (stream.length + 1) := by
  have hhi : memRead s p = .ok _ := hbytes.memRead 0 rfl (by omega) (by omega)
  rw [readSize_of_bytes hhi (hbytes.memRead 1 rfl hlim hlen)]
  congr 1
  simp only [BitVec.extractLsb'_toNat, BitVec.toNat_setWidth, BitVec.toNat_ofNat, Nat.shiftRight_eq_div_pow]
  omega

section header
variable {s : State} {n i p lim : Nat} {ts : Vector Track numTracks} {flags : Byte} {stream : List Byte}

/-- A whole header and stream inside `len` are accepted (41_init_parser.md R103, R104). -/
theorem parseHeaders_track (hstream : stream.length ≤ 65534) (hbytes : BytesAt s.mem p (trackBytes flags stream) lim)
    (hlim : p + 3 ≤ lim) (hlen : p + (stream.length + 3) ≤ s.buflen.toNat) :
    parseHeaders s (n + 1) i p ts = parseHeaders s n (i + 1) (p + (stream.length + 3))
      (ts.setIfInBounds i (headerTrack p (p + (stream.length + 3)) flags)) := by
  have hsize := readSize_trackBytes hstream hbytes (by omega) (by omega)
  have hflags := hbytes.memRead 2 (b := flags) rfl (by omega) (by omega)
  have hend : p + 2 + (stream.length + 1) = p + (stream.length + 3) := by omega
  rw [parseHeaders, if_neg (by omega), hsize]
  simp only [hend, hflags]
  rw [if_neg (by omega), if_neg (by omega)]

/-- A header or stream that `len` cuts short is refused, and no byte from `len` on is read (41_init_parser.md R103). -/
theorem parseHeaders_cut (hstream : stream.length ≤ 65534)
    (hbytes : BytesAt s.mem p (trackBytes flags stream) s.buflen.toNat) (hcut : s.buflen.toNat < p + (stream.length + 3)) :
    parseHeaders s (n + 1) i p ts = .malformed := by
  rw [parseHeaders]
  split
  · rfl
  · rw [readSize_trackBytes hstream hbytes (by omega) (by omega)]
    dsimp only
    rw [if_neg (by omega), if_pos (by omega)]

/-- A size of 0 is refused (41_init_parser.md R103, 60_exceptions.md R176). -/
theorem parseHeaders_size_zero (hbytes : BytesAt s.mem p [0, 0] lim) (hlim : p + 2 ≤ lim) (hlen : p + 2 ≤ s.buflen.toNat) :
    parseHeaders s (n + 1) i p ts = .malformed := by
  have hhi : memRead s p = .ok _ := hbytes.memRead 0 rfl (by omega) (by omega)
  rw [parseHeaders, if_neg (by omega), readSize_of_bytes hhi (hbytes.memRead 1 rfl (by omega) (by omega))]
  exact if_pos rfl

end header

/-- The contexts that the headers of `tracks` give, the first being track `i` with its header at `p` (41_init_parser.md R104). -/
def headerTracks : Nat → Nat → List (Byte × List Byte) → Vector Track numTracks → Vector Track numTracks
  | _, _, [], ts => ts
  | i, p, t :: rest, ts =>
    headerTracks (i + 1) (p + (t.2.length + 3)) rest
      (ts.setIfInBounds i (headerTrack p (p + (t.2.length + 3)) t.1))

theorem tracksBytes_cons (t : Byte × List Byte) (rest : List (Byte × List Byte)) :
    tracksBytes (t :: rest) = trackBytes t.1 t.2 ++ tracksBytes rest := rfl

theorem tracksBytes_cons_length (t : Byte × List Byte) (rest : List (Byte × List Byte)) :
    (tracksBytes (t :: rest)).length = t.2.length + 3 + (tracksBytes rest).length := by
  rw [tracksBytes_cons, List.length_append, trackBytes_length]

section headers
variable {s : State} {lim : Nat}

/-- The headers of whole tracks are parsed in order (41_init_parser.md R103 to R105). -/
theorem parseHeaders_tracks (tracks : List (Byte × List Byte)) (hstreams : ∀ t ∈ tracks, t.2.length ≤ 65534) {n i p : Nat}
    {ts : Vector Track numTracks} (hbytes : BytesAt s.mem p (tracksBytes tracks) lim)
    (hlim : p + (tracksBytes tracks).length ≤ lim) (hlen : p + (tracksBytes tracks).length ≤ s.buflen.toNat) :
    parseHeaders s (tracks.length + n) i p ts =
      parseHeaders s n (i + tracks.length) (p + (tracksBytes tracks).length) (headerTracks i p tracks ts) := by
  induction tracks generalizing i p ts with
  | nil => rw [List.length_nil, Nat.zero_add]; rfl
  | cons t rest ih =>
    rw [tracksBytes_cons_length] at hlim hlen
    rw [tracksBytes_cons] at hbytes
    have hright := hbytes.right
    rw [trackBytes_length] at hright
    have hcount : (t :: rest).length + n = rest.length + n + 1 := by rw [List.length_cons]; omega
    rw [hcount, parseHeaders_track (hstreams t List.mem_cons_self) hbytes.left (by omega) (by omega),
      ih (fun u hu => hstreams u (List.mem_cons_of_mem _ hu)) hright (by omega) (by omega), tracksBytes_cons_length,
      List.length_cons, headerTracks]
    congr 1 <;> omega

/-- A song cut short is refused at the track that `len` cuts (41_init_parser.md R103). -/
theorem parseHeaders_tracks_cut (tracks : List (Byte × List Byte)) (hstreams : ∀ t ∈ tracks, t.2.length ≤ 65534) {i p : Nat}
    {ts : Vector Track numTracks} (hbytes : BytesAt s.mem p (tracksBytes tracks) s.buflen.toNat)
    (hstart : p ≤ s.buflen.toNat) (hcut : s.buflen.toNat < p + (tracksBytes tracks).length) :
    parseHeaders s tracks.length i p ts = .malformed := by
  induction tracks generalizing i p ts with
  | nil => exact absurd hcut (Nat.not_lt.mpr hstart)
  | cons t rest ih =>
    rw [tracksBytes_cons_length] at hcut
    rw [tracksBytes_cons] at hbytes
    have hright := hbytes.right
    rw [trackBytes_length] at hright
    rcases Nat.lt_or_ge s.buflen.toNat (p + (t.2.length + 3)) with hhere | hwhole
    · exact parseHeaders_cut (hstreams t List.mem_cons_self) hbytes.left hhere
    · rw [List.length_cons, parseHeaders_track (hstreams t List.mem_cons_self) hbytes.left (by omega) hwhole]
      exact ih (fun u hu => hstreams u (List.mem_cons_of_mem _ hu)) hright hwhole (by omega)

end headers

section headerTracks
variable {i p : Nat} {tracks : List (Byte × List Byte)} {ts : Vector Track numTracks}

theorem setIfInBounds_same (ts : Vector Track numTracks) (t : Track) (j : Fin numTracks) :
    (ts.setIfInBounds j.val t)[j] = t := by simp

theorem setIfInBounds_other (ts : Vector Track numTracks) (t : Track) {i : Nat} {j : Fin numTracks} (h : i ≠ j.val) :
    (ts.setIfInBounds i t)[j] = ts[j] := by simp [h]

/-- Headers write the contexts of their own tracks. -/
theorem headerTracks_other (j : Fin numTracks) (hj : j.val < i ∨ i + tracks.length ≤ j.val) :
    (headerTracks i p tracks ts)[j] = ts[j] := by
  induction tracks generalizing i p ts with
  | nil => rfl
  | cons t rest ih =>
    rw [List.length_cons] at hj
    rw [headerTracks, ih (by omega), setIfInBounds_other ts _ (by omega)]

/-- The context of the `k`-th track: its header follows the `k` tracks before it (41_init_parser.md R105). -/
theorem headerTracks_get {k : Nat} {flags : Byte} {stream : List Byte} (hk : tracks[k]? = some (flags, stream))
    (j : Fin numTracks) (hj : j.val = i + k) :
    (headerTracks i p tracks ts)[j] =
      headerTrack (p + ((tracks.take k).map fun t => t.2.length + 3).sum)
        (p + ((tracks.take k).map fun t => t.2.length + 3).sum + (stream.length + 3)) flags := by
  induction tracks generalizing i p ts k with
  | nil => cases hk
  | cons t rest ih =>
    cases k with
    | zero =>
      obtain rfl := Option.some.inj hk
      obtain rfl : j.val = i := hj
      rw [headerTracks, headerTracks_other j (.inl (Nat.lt_succ_self _)), setIfInBounds_same]
      rfl
    | succ k =>
      rw [headerTracks, ih (k := k) hk (by omega), List.take_succ_cons, List.map_cons, List.sum_cons, Nat.add_assoc p]

end headerTracks

/-! ### The command -/

section initCommand
variable {s : State} {len : Word}

theorem initCommand_of_len_zero (h : len = 0) : initCommand len s = .next (refuseInit (beginInit len s)) := if_pos h

/-- INIT of a legal track count whose headers all parse (41_init_parser.md R108, R110). -/
theorem initCommand_of_accepted {n : Byte} {ts : Vector Track numTracks} (hlen : len ≠ 0)
    (hread : memRead (beginInit len s) 0 = .ok n) (hn : n.toNat ≤ maxTrackCount)
    (hparse : parseHeaders (beginInit len s) n.toNat 0 1 (beginInit len s).tracks = .accepted ts) :
    initCommand len s = .next (acceptInit n ts (beginInit len s)) := by
  simp only [initCommand, if_neg hlen, hread, if_neg (Nat.not_lt.mpr hn), hparse]

/-- INIT of a legal track count with a header that does not parse (41_init_parser.md R109, R110). -/
theorem initCommand_of_malformed {n : Byte} (hlen : len ≠ 0) (hread : memRead (beginInit len s) 0 = .ok n)
    (hn : n.toNat ≤ maxTrackCount)
    (hparse : parseHeaders (beginInit len s) n.toNat 0 1 (beginInit len s).tracks = .malformed) :
    initCommand len s = .next (refuseInit (beginInit len s)) := by
  simp only [initCommand, if_neg hlen, hread, if_neg (Nat.not_lt.mpr hn), hparse]

/-- INIT of a track count above 4 (41_init_parser.md R102). -/
theorem initCommand_of_count_gt {n : Byte} (hlen : len ≠ 0) (hread : memRead (beginInit len s) 0 = .ok n)
    (hn : maxTrackCount < n.toNat) : initCommand len s = .next (refuseInit (beginInit len s)) := by
  simp only [initCommand, if_neg hlen, hread, if_pos hn]

theorem ne_zero_of_toNat_pos {w : Nat} {x : BitVec w} (h : 0 < x.toNat) : x ≠ 0 := by
  rintro rfl
  simp at h

/-- The first byte of a song is its track count (30_encoding.md R89). -/
theorem memRead_count {song : List (Byte × List Byte)} {lim : Nat} (hsong : song.length ≤ 4)
    (hplaced : Placed s.mem (songBytes song) lim) (hlim : 0 < lim) (hlen : 0 < len.toNat) :
    ∃ n : Byte, memRead (beginInit len s) 0 = .ok n ∧ n.toNat = song.length := by
  refine ⟨BitVec.ofNat 8 song.length, memRead_ok.mpr ⟨hlen, ?_⟩, ?_⟩
  · exact hplaced 0 hlim (Nat.zero_lt_succ _)
  · rw [BitVec.toNat_ofNat, Nat.mod_eq_of_lt (by omega)]

theorem songBytes_length (song : List (Byte × List Byte)) : (songBytes song).length = 1 + (tracksBytes song).length :=
  Nat.add_comm ..

/-- The tracks of a song stand after its count. -/
theorem BytesAt.tracks {m : Memory} {b : Byte} {xs : List Byte} {lim : Nat} (h : Placed m (b :: xs) lim) :
    BytesAt m 1 xs lim := (BytesAt.of_placed (xs := [b] ++ xs) h).right

@[simp] theorem beginInit_buflen (len : Word) (s : State) : (beginInit len s).buflen = len := rfl

/-- INIT of a whole song gives the contexts of its headers. -/
theorem initCommand_of_song {song : List (Byte × List Byte)} (hsong : song.length ≤ 4)
    (hstreams : ∀ t ∈ song, t.2.length ≤ 65534) (hlen : (songBytes song).length ≤ len.toNat)
    (hplaced : Placed s.mem (songBytes song) (songBytes song).length) :
    ∃ n : Byte, n.toNat = song.length ∧
      initCommand len s = .next (acceptInit n (headerTracks 0 1 song (beginInit len s).tracks) (beginInit len s)) := by
  have hlength := songBytes_length song
  have hpos : 0 < len.toNat := by omega
  obtain ⟨n, hread, hn⟩ := memRead_count hsong hplaced (by omega) hpos
  have hparse := parseHeaders_tracks (s := beginInit len s) song hstreams (n := 0) (i := 0) (ts := (beginInit len s).tracks)
    (BytesAt.tracks hplaced) (by omega) (hlength.ge.trans hlen)
  rw [Nat.add_zero, ← hn] at hparse
  exact ⟨n, hn, initCommand_of_accepted (ne_zero_of_toNat_pos hpos) hread (hn.trans_le hsong) hparse⟩

/-- INIT of a song cut short: the count is there or `len` is 0, and the header that `len` cuts is refused. -/
theorem initCommand_of_song_cut {song : List (Byte × List Byte)} (hsong : song.length ≤ 4)
    (hstreams : ∀ t ∈ song, t.2.length ≤ 65534) (hlen : len.toNat < (songBytes song).length)
    (hplaced : Placed s.mem (songBytes song) len.toNat) : initCommand len s = .next (refuseInit (beginInit len s)) := by
  rcases Nat.eq_zero_or_pos len.toNat with hzero | hpos
  · exact initCommand_of_len_zero (BitVec.eq_of_toNat_eq hzero)
  · obtain ⟨n, hread, hn⟩ := memRead_count hsong hplaced hpos hpos
    have hcut := parseHeaders_tracks_cut (s := beginInit len s) song hstreams (i := 0) (ts := (beginInit len s).tracks)
      (BytesAt.tracks hplaced) hpos (hlen.trans_le (songBytes_length song).le)
    rw [← hn] at hcut
    exact initCommand_of_malformed (ne_zero_of_toNat_pos hpos) hread (hn.trans_le hsong) hcut

/-- INIT of a song whose next header after whole tracks has the size 0. -/
theorem initCommand_of_size_zero {n : Byte} {before : List (Byte × List Byte)} (hbefore : before.length < n.toNat)
    (hn : n.toNat ≤ 4) (hstreams : ∀ t ∈ before, t.2.length ≤ 65534) (hlen : (tracksBytes before).length + 3 ≤ len.toNat)
    (hplaced : Placed s.mem (n :: tracksBytes before ++ [0, 0]) ((tracksBytes before).length + 3)) :
    initCommand len s = .next (refuseInit (beginInit len s)) := by
  have hpos : 0 < len.toNat := by omega
  have hread : memRead (beginInit len s) 0 = .ok n :=
    memRead_ok.mpr ⟨hpos, hplaced 0 (by omega) (Nat.zero_lt_succ _)⟩
  have hbytes : BytesAt s.mem 1 (tracksBytes before ++ [0, 0]) _ := BytesAt.tracks hplaced
  have hend : 1 + (tracksBytes before).length + 2 ≤ (beginInit len s).buflen.toNat := by
    rw [beginInit_buflen]
    omega
  obtain ⟨m, hm⟩ := Nat.exists_eq_add_of_lt hbefore
  have hparse := parseHeaders_tracks (s := beginInit len s) before hstreams (n := m + 1) (i := 0)
    (ts := (beginInit len s).tracks) hbytes.left (by omega) (by omega)
  rw [parseHeaders_size_zero (s := beginInit len s) hbytes.right (by omega) hend, ← Nat.add_assoc, ← hm] at hparse
  exact initCommand_of_malformed (ne_zero_of_toNat_pos hpos) hread hn hparse

end initCommand

/-- Settles O41: the contexts are those of the song's headers, and the others reset. -/
theorem initAcceptsEverySong : Obligations.InitAcceptsEverySong := by
  unfold Obligations.InitAcceptsEverySong
  intro s song len q hcmds hsong hstreams hlen hplaced
  obtain ⟨n, hn, hinit⟩ := initCommand_of_song (s := { s with cmds := q }) hsong hstreams hlen hplaced
  refine ⟨_, (step_of_cmds hcmds).trans hinit, rfl, ?_, rfl, rfl, rfl, rfl, rfl, rfl, rfl, fun i flags stream hi => ?_,
    fun i hi => ?_⟩
  · refine (BitVec.toNat_setWidth 3 n).trans ?_
    rw [hn, Nat.mod_eq_of_lt (by omega)]
  · have hget := headerTracks_get (i := 0) (p := 1) (ts := (beginInit len { s with cmds := q }).tracks) hi i
      (Nat.zero_add _).symm
    have hstart : 1 + ((song.take i).map fun t => t.2.length + 3).sum + 3 = streamStart song i := by
      unfold streamStart
      omega
    have hend : 1 + ((song.take i).map fun t => t.2.length + 3).sum + (stream.length + 3) =
        streamStart song i + stream.length := by omega
    rw [hend, headerTrack, hstart] at hget
    exact hget
  · have hother := headerTracks_other (i := 0) (p := 1) (ts := (beginInit len { s with cmds := q }).tracks) i
      (.inr ((Nat.zero_add _).trans_le hi))
    exact hother.trans (Vector.getElem_replicate i.isLt)

/-- Settles O42: the step is the INIT of a song cut short. -/
theorem initRefusesASongCutShort : Obligations.InitRefusesASongCutShort := by
  unfold Obligations.InitRefusesASongCutShort
  intro s song len q hcmds hsong hstreams hlen hplaced
  exact (step_of_cmds hcmds).trans (initCommand_of_song_cut (s := { s with cmds := q }) hsong hstreams hlen hplaced)

/-- Settles O43: a refusal is one update of the state, and each of the three headers leads to it. -/
theorem refusedInitKeepsNoTrack : Obligations.RefusedInitKeepsNoTrack := by
  unfold Obligations.RefusedInitKeepsNoTrack
  refine ⟨fun s s' len q hcmds hstep hstatus => ?_, fun s len q hcmds hbad => ?_,
    fun s n before len q hcmds hbefore hn hstreams hlen hplaced => ?_⟩
  · have hinit : initCommand len { s with cmds := q } = .next s' := (step_of_cmds hcmds).symm.trans hstep
    rcases initCommand_cases hinit with rfl | ⟨-, n, ts, -, -, -, rfl⟩
    · exact ⟨rfl, rfl, rfl, rfl, rfl, fun i => Vector.getElem_replicate i.isLt⟩
    · exact absurd rfl hstatus
  · refine (step_of_cmds hcmds).trans ?_
    by_cases hzero : len = 0
    · exact initCommand_of_len_zero hzero
    · obtain ⟨n, hbyte, hn⟩ := hbad.resolve_left hzero
      have hread : memRead (beginInit len { s with cmds := q }) 0 = .ok n :=
        memRead_ok.mpr ⟨BitVec.toNat_pos_of_ne_zero hzero, hbyte⟩
      exact initCommand_of_count_gt hzero hread hn
  · exact (step_of_cmds hcmds).trans
      (initCommand_of_size_zero (s := { s with cmds := q }) hbefore hn hstreams hlen hplaced)

end Sys2Proof.Machine
end

section
/-! PROOFS. What an accepted header gives (41_init_parser.md R103 to R107), whatever the bytes are: contexts with the streams
inside `len` and in order, and the unused ones as they were. -/
namespace Sys2Proof.Machine

/-- What parsing can write as a context: that of a header at or past `lo` whose stream ends within the buffer. -/
def IsHeaderTrack (L : Word) (lo : Nat) (t : Track) : Prop :=
  ∃ p e flags, lo ≤ p ∧ p + 3 ≤ e ∧ e ≤ L.toNat ∧ t = headerTrack p e flags

/-- `ts'` is `ts` with the contexts `i` to `i + n - 1` written from headers at or past `p`, in order. -/
structure HeadersFrom (L : Word) (n i p : Nat) (ts ts' : Vector Track numTracks) : Prop where
  others : ∀ j : Fin numTracks, j.val < i ∨ i + n ≤ j.val → ts'[j] = ts[j]
  own : ∀ j : Fin numTracks, i ≤ j.val → j.val < i + n → IsHeaderTrack L p ts'[j]
  order : ∀ j k : Fin numTracks, i ≤ j.val → j.val < k.val → k.val < i + n → ts'[j].endOff.toNat ≤ ts'[k].cur.toNat

/-- One header accepted, and the rest after it. -/
theorem parseHeaders_succ_accepted {s : State} {n i p : Nat} {ts ts' : Vector Track numTracks}
    (h : parseHeaders s (n + 1) i p ts = .accepted ts') :
    ∃ e flags, p + 3 ≤ e ∧ e ≤ s.buflen.toNat ∧
      parseHeaders s n (i + 1) e (ts.setIfInBounds i (headerTrack p e flags)) = .accepted ts' := by
  rw [parseHeaders] at h
  split at h
  · cases h
  split at h
  · cases h
  · next size hsize =>
    split at h
    · cases h
    split at h
    · cases h
    split at h
    · cases h
    · next flags hflags => exact ⟨p + 2 + size, flags, by omega, by omega, h⟩

theorem IsHeaderTrack.mono {L : Word} {lo lo' : Nat} {t : Track} (h : IsHeaderTrack L lo t) (hle : lo' ≤ lo) :
    IsHeaderTrack L lo' t := by
  obtain ⟨p, e, flags, hp, hrest⟩ := h
  exact ⟨p, e, flags, hle.trans hp, hrest⟩

theorem headerTrack_cur {L : Word} {p e : Nat} (hp : p + 3 ≤ e) (he : e ≤ L.toNat) (flags : Byte) :
    (headerTrack p e flags).cur.toNat = p + 3 := by
  have hL := L.isLt
  exact Nat.mod_eq_of_lt (by omega)

theorem headerTrack_endOff {L : Word} {e : Nat} (he : e ≤ L.toNat) (p : Nat) (flags : Byte) :
    (headerTrack p e flags).endOff.toNat = e := Nat.mod_eq_of_lt (he.trans_lt L.isLt)

theorem IsHeaderTrack.cur_gt {L : Word} {lo : Nat} {t : Track} (h : IsHeaderTrack L lo t) : lo < t.cur.toNat := by
  obtain ⟨p, e, flags, hp, hpe, he, rfl⟩ := h
  rw [headerTrack_cur hpe he]
  omega

/-- Everything an accepted parse gives. -/
theorem parseHeaders_accepted {s : State} {n i p : Nat} {ts ts' : Vector Track numTracks}
    (h : parseHeaders s n i p ts = .accepted ts') : HeadersFrom s.buflen n i p ts ts' := by
  induction n generalizing i p ts with
  | zero =>
    cases h
    exact ⟨fun _ _ => rfl, fun j hlow hhigh => absurd hlow (by omega), fun j k hlow hjk hhigh => absurd hlow (by omega)⟩
  | succ n ih =>
    obtain ⟨e, flags, hpe, he, hrest⟩ := parseHeaders_succ_accepted h
    obtain ⟨others, own, order⟩ := ih hrest
    have hfirst : ∀ j : Fin numTracks, j.val = i → ts'[j] = headerTrack p e flags := by
      rintro j rfl
      rw [others j (.inl (Nat.lt_succ_self _)), setIfInBounds_same]
    refine ⟨fun j hj => ?_, fun j hlow hhigh => ?_, fun j k hlow hjk hhigh => ?_⟩
    · rw [others j (by omega), setIfInBounds_other ts _ (by omega)]
    · rcases hlow.eq_or_lt with hi | hi
      · exact ⟨p, e, flags, le_rfl, hpe, he, hfirst j hi.symm⟩
      · exact (own j hi (by omega)).mono (by omega)
    · rcases hlow.eq_or_lt with hi | hi
      · rw [hfirst j hi.symm, headerTrack_endOff he]
        exact (own k (by omega) (by omega)).cur_gt.le
      · exact order j k hi hjk (by omega)

theorem reset_inv (L : Word) : Track.reset.Inv L := by
  rw [Track.inv_iff]
  simp [Track.reset]

theorem IsHeaderTrack.inv {L : Word} {lo : Nat} {t : Track} (h : IsHeaderTrack L lo t) : t.Inv L := by
  obtain ⟨p, e, flags, hp, hpe, he, rfl⟩ := h
  have hreset := reset_inv L
  have hcur := headerTrack_cur hpe he flags
  have hend := headerTrack_endOff he p flags
  exact ⟨hcur.le.trans (hpe.trans hend.ge), hend.le.trans he, hreset.pan_le, hreset.ticks_le, hreset.last_le,
    hreset.segl_le, hreset.segp_le, Nat.zero_le _, nofun, nofun, hreset.halt_fault⟩

theorem IsHeaderTrack.arpon {L : Word} {lo : Nat} {t : Track} (h : IsHeaderTrack L lo t) : t.arpon = false := by
  obtain ⟨p, e, flags, -, -, -, rfl⟩ := h
  rfl

theorem IsHeaderTrack.play {L : Word} {lo : Nat} {t : Track} (h : IsHeaderTrack L lo t) : t.play = false := by
  obtain ⟨p, e, flags, -, -, -, rfl⟩ := h
  rfl

end Sys2Proof.Machine
end

section
/-! PROOFS. Every step keeps the invariant, and the streams apart (10_state.md section 2, 20_memory.md R66). A refused INIT and
a reset leave reset contexts, an accepted INIT those of the headers, and a TICK what the processing of each track makes of
its context; the host's placing and its status read write no context. -/
namespace Sys2Proof.Machine

section commands
variable {s s' : State}

/-- A state in which every context is reset and no track is in use. -/
structure NoTracks (s : State) : Prop where
  tracks : ∀ i : Fin numTracks, s.tracks[i] = Track.reset
  ntrk : s.ntrk = 0
  playing : s.playing = false

theorem NoTracks.anyPlaying_eq (h : NoTracks s) : anyPlaying s = false := Bool.eq_false_iff.mpr fun hany => by
  obtain ⟨i, hplay⟩ := anyPlaying_iff.mp hany
  rw [h.tracks i] at hplay
  cases hplay

theorem NoTracks.inv (h : NoTracks s) (hmem : s.mem.wf) (hrom : s.rom = freqTable) (hact : s.act = 0) : Inv s :=
  ⟨hmem, hrom, hact, by simp [h.ntrk], fun i => (h.tracks i).symm ▸ reset_inv s.buflen, fun i _ => h.tracks i,
    fun _ => h.ntrk, h.playing.trans h.anyPlaying_eq.symm⟩

theorem NoTracks.streamsApart (h : NoTracks s) : StreamsApart s := by
  have hunused : ∀ j : Fin numTracks, ¬ j.val < s.ntrk.toNat := fun j => by simp [h.ntrk]
  exact ⟨fun i j _ hj => absurd hj (hunused j), fun i j _ hj => absurd hj (hunused j)⟩

theorem resetBlock_noTracks (s : State) : NoTracks (resetBlock s) := ⟨resetBlock_tracks s, rfl, rfl⟩

theorem refuseInit_noTracks (len : Word) (s : State) : NoTracks (refuseInit (beginInit len s)) :=
  ⟨fun i => Vector.getElem_replicate i.isLt, rfl, rfl⟩

/-- The contexts of an accepted song: the count, those of the headers, and the others reset. -/
structure Accepted (n : Byte) (s' : State) : Prop where
  count : n.toNat ≤ 4
  status : s'.status = .ready
  ntrk : s'.ntrk.toNat = n.toNat
  playing : s'.playing = false
  own : ∀ i : Fin numTracks, i.val < n.toNat → IsHeaderTrack s'.buflen 1 s'.tracks[i]
  unused : ∀ i : Fin numTracks, n.toNat ≤ i.val → s'.tracks[i] = Track.reset
  order : ∀ i j : Fin numTracks, i.val < j.val → j.val < n.toNat → s'.tracks[i].endOff.toNat ≤ s'.tracks[j].cur.toNat

/-- What an INIT that does not stop leaves of the tracks. -/
theorem initCommand_tracks {len : Word} (h : initCommand len s = .next s') : NoTracks s' ∨ ∃ n, Accepted n s' := by
  rcases initCommand_cases h with rfl | ⟨-, n, ts, -, hn, hparse, rfl⟩
  · exact .inl (refuseInit_noTracks len s)
  · obtain ⟨others, own, order⟩ := parseHeaders_accepted hparse
    have hfour : n.toNat ≤ 4 := hn
    have hcount : (n.setWidth 3).toNat = n.toNat := by
      rw [BitVec.toNat_setWidth]
      exact Nat.mod_eq_of_lt (by omega)
    refine .inr ⟨n, hfour, rfl, hcount, rfl, fun i hi => ?_, fun i hi => ?_, fun i j hij hj => ?_⟩
    · exact own i (Nat.zero_le _) (by omega)
    · exact (others i (.inr (by omega))).trans (Vector.getElem_replicate i.isLt)
    · exact order i j (Nat.zero_le _) hij (by omega)

theorem Accepted.inv {n : Byte} (h : Accepted n s') (hmem : s'.mem.wf) (hrom : s'.rom = freqTable) (hact : s'.act = 0) :
    Inv s' := by
  have hplay : ∀ i : Fin numTracks, s'.tracks[i].play = false := fun i => by
    rcases Nat.lt_or_ge i.val n.toNat with hi | hi
    · exact (h.own i hi).play
    · rw [h.unused i hi]
      rfl
  have hnone : anyPlaying s' = false := Bool.eq_false_iff.mpr fun hany => by
    obtain ⟨i, hi⟩ := anyPlaying_iff.mp hany
    exact absurd ((hplay i).symm.trans hi) nofun
  refine ⟨hmem, hrom, hact, h.ntrk.trans_le h.count, fun i => ?_, fun i hi => h.unused i (h.ntrk ▸ hi),
    fun hidle => absurd h.status hidle, h.playing.trans hnone.symm⟩
  rcases Nat.lt_or_ge i.val n.toNat with hi | hi
  · exact (h.own i hi).inv
  · rw [h.unused i hi]
    exact reset_inv _

theorem Accepted.streamsApart {n : Byte} (h : Accepted n s') : StreamsApart s' := by
  refine ⟨fun i j hij hj => h.order i j hij (h.ntrk ▸ hj), fun i j hij hj harp => ?_⟩
  rw [(h.own j (h.ntrk ▸ hj)).arpon] at harp
  cases harp

theorem initCommand_keeps_fixed {len : Word} (h : initCommand len s = .next s') : s'.rom = s.rom ∧ s'.act = s.act := by
  rcases initCommand_cases h with rfl | ⟨-, n, ts, -, -, -, rfl⟩
  · exact ⟨rfl, rfl⟩
  · exact ⟨rfl, rfl⟩

theorem initCommand_inv {len : Word} (hinv : Inv s) (h : initCommand len s = .next s') : Inv s' := by
  obtain ⟨hrom, hact⟩ := initCommand_keeps_fixed h
  have hmem : s'.mem.wf := (initCommand_mem h).symm ▸ hinv.mem_wf
  rcases initCommand_tracks h with hnone | ⟨n, haccepted⟩
  · exact hnone.inv hmem (hrom.trans hinv.rom_eq) (hact.trans hinv.act_eq)
  · exact haccepted.inv hmem (hrom.trans hinv.rom_eq) (hact.trans hinv.act_eq)

theorem initCommand_streamsApart {len : Word} (h : initCommand len s = .next s') : StreamsApart s' := by
  rcases initCommand_tracks h with hnone | ⟨n, haccepted⟩
  · exact hnone.streamsApart
  · exact haccepted.streamsApart

/-! ### TICK -/

theorem reset_idle : Track.reset.Idle := .inr ⟨rfl, le_rfl⟩

theorem Inv.noTracks (hinv : Inv s) (hidle : s.status ≠ .ready) :
    NoTracks { s with playing := false, replies := s.replies ++ [.tick false] } := by
  have hnone := hinv.not_ready hidle
  exact ⟨fun i => hinv.unused i (by simp [hnone]), hnone, rfl⟩

/-- An unused track stays reset (41_init_parser.md R107). -/
theorem processTrack_reset {i : Fin numTracks} (hreset : s.tracks[i] = Track.reset) (h : processTrack i s = .next s') :
    s'.tracks[i] = Track.reset := by
  rw [processTrack_of_idle (hreset.symm ▸ reset_idle)] at h
  cases h
  exact (beginTrack_track i s).trans (by rw [hreset]; rfl)

theorem tick_act (hready : s.status = .ready) (h : tick s = .next s') : s'.act = 0 := by
  rcases tick_cases h with ⟨hidle, -⟩ | ⟨-, -, t, -, rfl⟩
  · exact absurd hready hidle
  · rfl

theorem tick_inv (hinv : Inv s) (h : tick s = .next s') : Inv s' := by
  by_cases hready : s.status = .ready
  · have hkeeps := tick_keeps h
    refine ⟨hkeeps.mem.symm ▸ hinv.mem_wf, hkeeps.rom.trans hinv.rom_eq, tick_act hready h, hkeeps.ntrk.symm ▸ hinv.ntrk_le,
      fun i => ?_, fun i hi => ?_, fun hidle => absurd (hkeeps.status.trans hready) hidle, tick_playing hready h⟩
    · obtain ⟨u, hu, htrack⟩ := tick_track hready h i
      rw [htrack, hkeeps.buflen]
      exact (processTrack_inv (.zero (hinv.tracks i)) hu).inv
    · obtain ⟨u, hu, htrack⟩ := tick_track hready h i
      rw [htrack]
      exact processTrack_reset (hinv.unused i (hkeeps.ntrk ▸ hi)) hu
  · rw [tick_of_not_ready hready] at h
    cases h
    exact (hinv.noTracks hready).inv hinv.mem_wf hinv.rom_eq hinv.act_eq

/-- A TICK moves no cursor, and sets no arpeggio's note list, below where the track's reads start. -/
theorem tick_invFrom {lo : Nat} {i : Fin numTracks} (hfrom : s.tracks[i].InvFrom lo s.buflen) (h : tick s = .next s') :
    s'.tracks[i].InvFrom lo s.buflen := by
  by_cases hready : s.status = .ready
  · obtain ⟨u, hu, htrack⟩ := tick_track hready h i
    rw [htrack]
    exact processTrack_inv hfrom hu
  · rw [tick_of_not_ready hready] at h
    cases h
    exact hfrom

theorem tick_streamsInOrder (horder : StreamsInOrder s) (h : tick s = .next s') : StreamsInOrder s' := by
  obtain ⟨hheader, -, -, hntrk, -⟩ := tickKeepsHeaderFields s s' h
  intro i j hij hj
  obtain ⟨-, -, hend, -⟩ := hheader i
  obtain ⟨-, -, -, hcur⟩ := hheader j
  rw [hend]
  exact (horder i j hij (hntrk ▸ hj)).trans hcur

theorem tick_streamsApart (hinv : Inv s) (hapart : StreamsApart s) (h : tick s = .next s') : StreamsApart s' := by
  obtain ⟨horder, hlist⟩ := hapart
  refine ⟨tick_streamsInOrder horder h, fun i j hij hj => ?_⟩
  obtain ⟨hheader, -, -, hntrk, -⟩ := tickKeepsHeaderFields s s' h
  obtain ⟨-, -, hend, -⟩ := hheader i
  rw [hntrk] at hj
  have hfrom : s.tracks[j].InvFrom s.tracks[i].endOff.toNat s.buflen :=
    ⟨hinv.tracks j, horder i j hij hj, hlist i j hij hj⟩
  rw [hend]
  exact (tick_invFrom hfrom h).list_ge

/-! ### One command -/

theorem runCommand_inv {c : Command} (hinv : Inv s) (h : runCommand c s = .next s') : Inv s' := by
  cases c with
  | reset =>
    cases h
    exact (resetBlock_noTracks s).inv hinv.mem_wf hinv.rom_eq rfl
  | place a b =>
    cases h
    exact ⟨placeByte_mem_wf hinv.mem_wf a b, hinv.rom_eq, hinv.act_eq, hinv.ntrk_le, hinv.tracks, hinv.unused,
      hinv.not_ready, hinv.playing_eq⟩
  | init len => exact initCommand_inv hinv h
  | tick => exact tick_inv hinv h
  | readStatus =>
    cases h
    exact ⟨hinv.mem_wf, hinv.rom_eq, hinv.act_eq, hinv.ntrk_le, hinv.tracks, hinv.unused, hinv.not_ready, hinv.playing_eq⟩

theorem runCommand_streamsInOrder {c : Command} (horder : StreamsInOrder s) (h : runCommand c s = .next s') :
    StreamsInOrder s' := by
  cases c with
  | reset => cases h; exact (resetBlock_noTracks s).streamsApart.1
  | place a b => cases h; exact horder
  | init len => exact (initCommand_streamsApart h).1
  | tick => exact tick_streamsInOrder horder h
  | readStatus => cases h; exact horder

theorem runCommand_streamsApart {c : Command} (hinv : Inv s) (hapart : StreamsApart s) (h : runCommand c s = .next s') :
    StreamsApart s' := by
  cases c with
  | reset => cases h; exact (resetBlock_noTracks s).streamsApart
  | place a b => cases h; exact hapart
  | init len => exact initCommand_streamsApart h
  | tick => exact tick_streamsApart hinv hapart h
  | readStatus => cases h; exact hapart

/-- A step does nothing, or is one command on the state without it (log 1). -/
theorem step_cases (h : step s = .next s') :
    s' = s ∨ ∃ c q, s.cmds = c :: q ∧ runCommand c { s with cmds := q } = .next s' := by
  cases hcmds : s.cmds with
  | nil =>
    simp only [step, hcmds] at h
    cases h
    exact .inl rfl
  | cons c q => exact .inr ⟨c, q, rfl, (step_of_cmds hcmds).symm.trans h⟩

/-- The commands to come are no part of the invariant. -/
theorem Inv.of_cmds (hinv : Inv s) (q : List Command) : Inv { s with cmds := q } :=
  ⟨hinv.mem_wf, hinv.rom_eq, hinv.act_eq, hinv.ntrk_le, hinv.tracks, hinv.unused, hinv.not_ready, hinv.playing_eq⟩

end commands

/-- Settles O50: every command keeps the invariant. -/
theorem everyStepKeepsTheInvariant : Obligations.EveryStepKeepsTheInvariant := by
  unfold Obligations.EveryStepKeepsTheInvariant
  intro s s' hinv h
  rcases step_cases h with rfl | ⟨c, q, -, hrun⟩
  · exact hinv
  · exact runCommand_inv (hinv.of_cmds q) hrun

/-- Settles O51: every command keeps the order of the streams, and the note lists apart from the streams before them. -/
theorem streamsStayInOrder : Obligations.StreamsStayInOrder := by
  unfold Obligations.StreamsStayInOrder
  refine ⟨fun s s' _ horder h => ?_, fun s s' hinv hapart h => ?_⟩
  · rcases step_cases h with rfl | ⟨c, q, -, hrun⟩
    · exact horder
    · exact runCommand_streamsInOrder (s := { s with cmds := q }) horder hrun
  · rcases step_cases h with rfl | ⟨c, q, -, hrun⟩
    · exact hapart
    · exact runCommand_streamsApart (hinv.of_cmds q) hapart hrun

end Sys2Proof.Machine
end

section
/-! PROOFS. The ticks of one event (42_tick_dispatcher.md R125, 45_arpeggio.md R156). While ETL is not 0 the dispatch loop of
the track takes no turn, so a TICK is its event step; what the event step emits depends on ELAP alone, and the timeline of the
event follows by induction on the number of TICKs, for a rest or a NOTE and for an arpeggio alike. -/
namespace Sys2Proof.Machine

/-- The context `t` at other counters and another PLAY: all that the event step changes. -/
def Track.atTick (t : Track) (play : Bool) (elap etl : Half) : Track := { t with play := play, elap := elap, etl := etl }

/-- The event of the context `t` of track `i` emits `tones e` in the event step at ELAP = `e`, wherever its counters stand,
over the buffer and the ROM of `s`. -/
def Plays (i : Fin numTracks) (tones : Nat → List ToneEvent) (s : State) (t : Track) : Prop :=
  ∀ (s2 : State) (play : Bool) (elap etl : Half), s2.act = i → s2.mem = s.mem → s2.rom = s.rom →
    s2.track = t.atTick play elap etl → etl ≠ 0 → s2.track.Inv s2.buflen →
    ResultIs (eventStep s2) s2 s2.track.counted (tones elap.toNat)

section timeline
variable {i : Fin numTracks} {tones : Nat → List ToneEvent} {s s2 t : State}

/-- What `Plays` says holds at other counters and in a state with the same buffer and ROM. -/
theorem Plays.atTick {u : Track} (h : Plays i tones s u) (hmem : t.mem = s.mem) (hrom : t.rom = s.rom) (play : Bool)
    (elap etl : Half) : Plays i tones t (u.atTick play elap etl) := fun s2 play' elap' etl' hact hmem2 hrom2 htrack =>
  h s2 play' elap' etl' hact (hmem2.trans hmem) (hrom2.trans hrom) htrack

/-- The events of a track's dispatch loop are the track's own. -/
theorem LoopLeaves.out (h : LoopLeaves i s s2) : ∃ evs, s2.out = s.out ++ evs ∧ ∀ e ∈ evs, e.track = i := by
  obtain ⟨evs, hout, -, htrack⟩ := (dispatchLoop_cases _ h.2).1.out
  exact ⟨evs, hout, htrack⟩

theorem LoopLeaves.act (h : LoopLeaves i s s2) : s2.act = i := h.same.act

theorem LoopLeaves.mem (h : LoopLeaves i s s2) : s2.mem = s.mem := (dispatchLoop_cases _ h.2).1.mem

/-- In an event the dispatch loop takes no turn (42_tick_dispatcher.md R115). -/
theorem loopLeaves_of_event (hrun : s.tracks[i].halt = false) (hetl : s.tracks[i].etl ≠ 0) :
    LoopLeaves i s (beginTrack i s) := by
  refine ⟨hrun, dispatchLoop_of_not_ready (Bool.eq_false_iff.mpr fun hready => hetl ?_)⟩
  have hzero := (ready_iff.mp hready).1
  rwa [beginTrack_track] at hzero

theorem Track.Inv.running {L : Word} {t : Track} (h : t.Inv L) (hetl : t.etl ≠ 0) : t.halt = false :=
  Bool.eq_false_iff.mpr fun hhalt => hetl (h.halt_etl hhalt)

theorem HostKeepsDuties.of_keeps (h : HostKeepsDuties s) (hkeeps : TickKeeps s t) : HostKeepsDuties t := by
  refine ⟨hkeeps.bufWritten.trans h.1, fun a ha => ?_⟩
  rw [hkeeps.mem]
  exact h.2 a (hkeeps.buflen ▸ ha)

/-- A state between commands in which TICK goes on. -/
structure Running (s : State) : Prop where
  inv : Inv s
  duties : HostKeepsDuties s
  ready : s.status = .ready

/-- What a TICK leaves when the event step of track `i` emits `evs` in the state `s2`. -/
structure EventTicked (i : Fin numTracks) (s s2 t : State) (evs : List ToneEvent) : Prop where
  running : Running t
  mem : t.mem = s.mem
  rom : t.rom = s.rom
  track : t.tracks[i] = s2.track.counted
  playing : t.playing = true
  out : t.out.filter (fun e => e.track == i) = s2.out.filter (fun e => e.track == i) ++ evs

/-- A TICK of a track whose dispatch loop leaves it in an event is the event step of that event. -/
theorem tick_of_plays (hrunning : Running s) (hleaves : LoopLeaves i s s2) (hplays : Plays i tones s s2.track)
    (hetl : s2.track.etl ≠ 0) :
    ∃ t, tick s = .next t ∧ EventTicked i s s2 t (tones s2.track.elap.toNat) := by
  obtain ⟨hinv, hduties, hready⟩ := hrunning
  obtain ⟨t, htick⟩ := tickCompletesUnderTheHostsDuties s hinv hduties
  have hkeeps := tick_keeps htick
  have hinv2 : s2.track.Inv s2.buflen := by
    rw [hleaves.same.buflen]
    exact (hleaves.inv (.zero (hinv.tracks i))).inv
  have hstep := hplays s2 _ _ _ hleaves.act hleaves.mem hleaves.same.rom rfl hetl hinv2
  obtain ⟨u, evs, hu, htrack, hout, hfilter⟩ := tick_shows hready htick i
  have hcounted : t.tracks[i] = s2.track.counted := by
    rw [hleaves.processTrack_eq.symm.trans hu] at hstep
    rw [htrack, processTrack_track hu, hstep.of_next.1]
  refine ⟨t, htick, ⟨tick_inv hinv htick, hduties.of_keeps hkeeps, hkeeps.status.trans hready⟩, hkeeps.mem, hkeeps.rom,
    hcounted, ?_, ?_⟩
  · rw [tick_playing hready htick, anyPlaying_iff]
    exact ⟨i, by rw [hcounted]; rfl⟩
  · rw [hleaves.processTrack_eq.symm.trans hu] at hstep
    obtain ⟨-, hout2, -⟩ := hstep.of_next
    obtain ⟨loopEvs, hloop, hown⟩ := hleaves.out
    obtain rfl : evs = loopEvs ++ tones s2.track.elap.toNat := by
      rw [hout2, hloop, List.append_assoc] at hout
      exact (List.append_cancel_left hout).symm
    rw [hfilter, hloop, List.filter_append, filter_events_of_self hown, List.append_assoc]

/-- What `k` TICKs leave of an event in the state `s2`, of which `evs` are the events. -/
structure Timeline (i : Fin numTracks) (s2 t : State) (k : Nat) (evs : List ToneEvent) : Prop where
  etl : t.tracks[i].etl.toNat = s2.track.etl.toNat - k
  elap : t.tracks[i].elap.toNat = s2.track.elap.toNat + k
  cur : t.tracks[i].cur = s2.track.cur
  play : t.tracks[i].play = true
  playing : t.playing = true
  out : t.out.filter (fun e => e.track == i) = s2.out.filter (fun e => e.track == i) ++ evs

theorem EventTicked.timeline {evs : List ToneEvent} (h : EventTicked i s s2 t evs) {L : Word} (hinv : s2.track.Inv L)
    (hetl : s2.track.etl ≠ 0) : Timeline i s2 t 1 evs := by
  obtain ⟨hdown, hup⟩ := hinv.counted_ticks hetl
  exact ⟨h.track ▸ hdown, h.track ▸ hup, h.track ▸ rfl, h.track ▸ rfl, h.playing, h.out⟩

/-- The first TICK and the `k` after it. -/
theorem Timeline.succ {k : Nat} {t1 : State} {evs evs1 : List ToneEvent} (h1 : Timeline i s2 t1 1 evs1)
    (h : Timeline i (beginTrack i t1) t k evs) : Timeline i s2 t (k + 1) (evs1 ++ evs) := by
  obtain ⟨hetl, helap, hcur, hplay, hplaying, hout⟩ := h
  rw [beginTrack_track] at hetl helap hcur
  refine ⟨?_, ?_, hcur.trans h1.cur, hplay, hplaying, ?_⟩
  · rw [hetl, h1.etl, Nat.sub_sub, Nat.add_comm 1]
  · rw [helap, h1.elap, Nat.add_assoc, Nat.add_comm 1]
  · rw [hout, beginTrack_out, h1.out, List.append_assoc]

/-- The timeline of an event: each TICK is its event step, at the next ELAP (42_tick_dispatcher.md R125). -/
theorem ticks_of_plays (k : Nat) (hrunning : Running s) (hleaves : LoopLeaves i s s2) (hplays : Plays i tones s s2.track)
    (hpos : 1 ≤ k) (hk : k ≤ s2.track.etl.toNat) :
    ∃ t, ticks k s = .next t ∧
      Timeline i s2 t k ((List.range k).flatMap fun d => tones (s2.track.elap.toNat + d)) := by
  induction k generalizing s s2 with
  | zero => exact absurd hpos (by decide)
  | succ k ih =>
    have hetl : s2.track.etl ≠ 0 := ne_zero_of_toNat_pos (by omega)
    have hinv2 := (hleaves.inv (.zero (hrunning.inv.tracks i))).inv
    obtain ⟨t1, htick, hticked⟩ := tick_of_plays hrunning hleaves hplays hetl
    have hfirst := hticked.timeline hinv2 hetl
    rcases Nat.eq_zero_or_pos k with rfl | hkpos
    · exact ⟨t1, by rw [ticks, htick]; rfl, by simpa using hfirst⟩
    · have hleft : t1.tracks[i].etl ≠ 0 := ne_zero_of_toNat_pos (by rw [hfirst.etl]; omega)
      have hrun : t1.tracks[i].halt = false := (hticked.running.inv.tracks i).running hleft
      have htrack : (beginTrack i t1).track = s2.track.atTick false s2.track.counted.elap s2.track.counted.etl := by
        rw [beginTrack_track, hticked.track]
        rfl
      have hplays1 : Plays i tones t1 (beginTrack i t1).track := htrack ▸ hplays.atTick hticked.mem hticked.rom _ _ _
      obtain ⟨t, hticks, hrest⟩ := ih hticked.running (loopLeaves_of_event hrun hleft) hplays1 hkpos
        (by rw [beginTrack_track]; exact hfirst.etl ▸ Nat.le_sub_of_add_le hk)
      refine ⟨t, by rw [ticks, htick]; exact hticks, ?_⟩
      have hall := hfirst.succ hrest
      rw [beginTrack_track, hfirst.elap] at hall
      rw [List.range_succ_eq_map, List.flatMap_cons, List.flatMap_map]
      simpa only [Nat.add_assoc, Nat.add_comm 1, Nat.succ_eq_add_one, Nat.add_zero] using hall

end timeline

/-- Without an arpeggio an event is silent. -/
theorem plays_of_no_arp (i : Fin numTracks) (s : State) {t : Track} (hrun : t.halt = false) (harp : t.arpon = false) :
    Plays i (fun _ => []) s t := by
  intro s2 play elap etl _ _ _ htrack hetl _
  exact (eventStepCounts s2).1 (by rw [htrack]; exact hrun) (by rw [htrack]; exact hetl) (by rw [htrack]; exact harp)

/-- Settles O38: the timeline of a silent event, from a state between commands. -/
theorem eventLastsItsTicks : Obligations.EventLastsItsTicks := by
  unfold Obligations.EventLastsItsTicks
  intro s i k hinv hduties hready hrun harp hk
  rcases Nat.eq_zero_or_pos k with rfl | hpos
  · exact ⟨s, rfl, rfl, rfl, rfl, nofun⟩
  · have hetl : s.tracks[i].etl ≠ 0 := ne_zero_of_toNat_pos (hpos.trans_le hk)
    have hplays : Plays i (fun _ => []) s (beginTrack i s).track :=
      plays_of_no_arp i s (by rw [beginTrack_track]; exact hrun) (by rw [beginTrack_track]; exact harp)
    obtain ⟨t, hticks, htime⟩ := ticks_of_plays k ⟨hinv, hduties, hready⟩ (loopLeaves_of_event hrun hetl) hplays hpos
      (by rw [beginTrack_track]; exact hk)
    obtain ⟨hetl', helap, hcur, hplay, hplaying, -⟩ := htime
    rw [beginTrack_track] at hetl' helap hcur
    exact ⟨t, hticks, hetl', helap, hcur, fun _ => ⟨hplay, hplaying⟩⟩

end Sys2Proof.Machine
end

section
/-! PROOFS. The retrigger schedule (45_arpeggio.md R156): the multiples of ARPSPD in an interval of elapsed ticks are an interval
of indices, from one quotient rounded up to another, so the retriggers of consecutive stretches of ticks follow each other. -/
namespace Sys2Proof.Machine

/-- The `j`-th tone of the arpeggio of `t` (45_arpeggio.md R153). -/
def arpTone (i : Fin numTracks) (f : Nat → Half) (t : Track) (j : Nat) : ToneEvent :=
  ⟨i, (f (j % t.last.toNat)).setWidth 32,
    packDur durPack (envelope t.arpspd.toNat t.atk.toNat t.dec.toNat).sustain t.rel
      (BitVec.ofNat 8 (envelope t.arpspd.toNat t.atk.toNat t.dec.toNat).decay)
      (BitVec.ofNat 8 (envelope t.arpspd.toNat t.atk.toNat t.dec.toNat).attack),
    volWord t, flagsWord t⟩

/-- The indices of the multiples of `d` from `e` up to `e + k`. -/
theorem filter_multiples_eq_Ico {d : Nat} (hd : 0 < d) (e k : Nat) :
    ((List.range (e + k)).filter fun j => e ≤ j * d ∧ j * d < e + k) = List.Ico (e ⌈/⌉ d) ((e + k) ⌈/⌉ d) := by
  have hle : ∀ x j, x ≤ j * d ↔ x ⌈/⌉ d ≤ j := fun x j => by rw [ceilDiv_le_iff_le_mul hd, Nat.mul_comm]
  have hbound : (e + k) ⌈/⌉ d ≤ e + k := (hle _ _).mp (Nat.le_mul_of_pos_right _ hd)
  have hpred : (fun j => decide (e ≤ j * d ∧ j * d < e + k)) =
      fun j => decide (e ⌈/⌉ d ≤ j) && decide (j < (e + k) ⌈/⌉ d) := funext fun j => by
    rw [Bool.decide_and, decide_eq_decide.mpr (hle e j), decide_eq_decide.mpr (lt_iff_lt_of_le_iff_le (hle (e + k) j))]
  rw [hpred, ← List.filter_filter, ← List.Ico.zero_bot, List.Ico.filter_lt, List.Ico.filter_le, Nat.zero_max,
    Nat.min_eq_right hbound]

theorem retriggers_eq_map {i : Fin numTracks} {f : Nat → Half} {t : Track} (hspd : t.arpspd ≠ 0) (e k : Nat) :
    retriggers i f t e k =
      (List.Ico (e ⌈/⌉ t.arpspd.toNat) ((e + k) ⌈/⌉ t.arpspd.toNat)).map (arpTone i f t) := by
  rw [← filter_multiples_eq_Ico (BitVec.toNat_pos_of_ne_zero hspd)]
  rfl

/-- The retriggers of a stretch of ticks and of the next one. -/
theorem retriggers_add {i : Fin numTracks} {f : Nat → Half} {t : Track} (hspd : t.arpspd ≠ 0) (e k m : Nat) :
    retriggers i f t e (k + m) = retriggers i f t e k ++ retriggers i f t (e + k) m := by
  have hmono := (gc_mul_ceilDiv (BitVec.toNat_pos_of_ne_zero hspd)).monotone_l
  rw [retriggers_eq_map hspd, retriggers_eq_map hspd, retriggers_eq_map hspd, ← List.map_append,
    List.Ico.append_consecutive (hmono (Nat.le_add_right ..)) (hmono (Nat.le_add_right ..)), Nat.add_assoc]

theorem retriggers_eq_flatMap {i : Fin numTracks} {f : Nat → Half} {t : Track} (hspd : t.arpspd ≠ 0) (e k : Nat) :
    retriggers i f t e k = (List.range k).flatMap fun d => retriggers i f t (e + d) 1 := by
  induction k with
  | zero =>
    rw [retriggers_eq_map hspd, Nat.add_zero, List.Ico.self_empty]
    rfl
  | succ k ih => rw [retriggers_add hspd, ih, List.range_succ, List.flatMap_append, List.flatMap_singleton]

/-- A retrigger on a tick due, and none on another (45_arpeggio.md R153). -/
theorem retriggers_one {i : Fin numTracks} {f : Nat → Half} {t : Track} (hspd : t.arpspd ≠ 0) (e : Nat) :
    retriggers i f t e 1 = if e % t.arpspd.toNat = 0 then [arpTone i f t (e / t.arpspd.toNat)] else [] := by
  have hpos := BitVec.toNat_pos_of_ne_zero hspd
  rw [retriggers_eq_map hspd]
  generalize t.arpspd.toNat = d at hpos
  have hnext : (e + 1) ⌈/⌉ d = e / d + 1 := by
    rw [Nat.ceilDiv_eq_add_pred_div, Nat.add_right_comm, Nat.add_sub_cancel, Nat.add_div_right e hpos]
  have hfloor : e / d ≤ e ⌈/⌉ d := Nat.floorDiv_eq_div e d ▸ floorDiv_le_ceilDiv
  have hle : e ⌈/⌉ d ≤ e / d + 1 := hnext ▸ (gc_mul_ceilDiv hpos).monotone_l (Nat.le_succ e)
  have hexact : e ⌈/⌉ d ≤ e / d ↔ e ≤ d * (e / d) := ceilDiv_le_iff_le_mul hpos
  have hsplit := Nat.div_add_mod e d
  rw [hnext]
  split
  · have hceil : e ⌈/⌉ d = e / d := le_antisymm (hexact.mpr (by omega)) hfloor
    rw [hceil, List.Ico.succ_singleton, List.map_singleton]
  · have hceil : e ⌈/⌉ d = e / d + 1 := le_antisymm hle (Nat.lt_of_not_le fun hexact' => absurd (hexact.mp hexact') (by omega))
    rw [hceil, List.Ico.self_empty, List.map_nil]

/-- The event step of an arpeggio whose pitches all have a frequency follows the schedule (45_arpeggio.md R153, R156). -/
theorem plays_of_arp (i : Fin numTracks) {f : Nat → Half} {s : State} {t : Track} (hrun : t.halt = false)
    (harp : t.arpon = true) (hspd : t.arpspd ≠ 0)
    (hpitch : ∀ j, j < t.last.toNat → ∃ p, s.mem.read (t.arpptr.toNat + j) = some p ∧ freq s.rom p = some (f j)) :
    Plays i (fun e => retriggers i f t e 1) s t := by
  intro s2 play elap etl hact hmem hrom htrack hetl hinv
  have hstep := arpeggioStepRetriggers s2 (by rw [htrack]; exact hrun) (by rw [htrack]; exact hetl)
    (by rw [htrack]; exact harp) (by rw [htrack]; exact hspd)
  have hin := (hinv.arpIndex_lt (by rw [htrack]; exact harp)).trans_le hinv.end_le
  obtain ⟨htwo, -⟩ := hinv.arp_list (by rw [htrack]; exact harp)
  rw [htrack] at hstep hin htwo ⊢
  dsimp only
  rw [retriggers_one hspd]
  split
  · next hdue =>
    have hlast : 2 ≤ t.last.toNat := htwo
    obtain ⟨p, hread, hf⟩ := hpitch (elap.toNat / t.arpspd.toNat % t.last.toNat) (Nat.mod_lt _ (by omega))
    rw [← hmem] at hread
    rw [← hrom] at hf
    have hresult := hstep.2 p _ hdue (ne_zero_of_toNat_pos (by omega : 0 < t.last.toNat)) (memRead_ok.mpr ⟨hin, hread⟩) hf
    rw [hact] at hresult
    exact hresult
  · next hwait => exact hstep.1 hwait

/-- The timeline of an arpeggio whose pitches all have a frequency. -/
theorem ticks_of_arp {i : Fin numTracks} {f : Nat → Half} {s s2 : State} {k : Nat} (hrunning : Running s)
    (hleaves : LoopLeaves i s s2) (hrun : s2.track.halt = false) (harp : s2.track.arpon = true)
    (hspd : s2.track.arpspd ≠ 0)
    (hpitch : ∀ j, j < s2.track.last.toNat →
      ∃ p, s.mem.read (s2.track.arpptr.toNat + j) = some p ∧ freq s.rom p = some (f j))
    (hpos : 1 ≤ k) (hk : k ≤ s2.track.etl.toNat) :
    ∃ t, ticks k s = .next t ∧ Timeline i s2 t k (retriggers i f s2.track s2.track.elap.toNat k) := by
  rw [retriggers_eq_flatMap hspd]
  exact ticks_of_plays k hrunning hleaves (plays_of_arp i hrun harp hspd hpitch) hpos hk

/-- Settles O39: the timeline of an arpeggio, from the TICK whose loop leaves it in the event; between commands that is any
TICK of the event. -/
theorem arpeggioFollowsItsSchedule : Obligations.ArpeggioFollowsItsSchedule := by
  unfold Obligations.ArpeggioFollowsItsSchedule
  refine ⟨fun s i f k hinv hduties hready hrun harp hspd hpitch hk => ?_,
    fun s s2 i f k hinv hduties hready hleaves hrun harp hspd hpitch hpos hk => ?_⟩
  · rcases Nat.eq_zero_or_pos k with rfl | hpos
    · refine ⟨s, rfl, rfl, rfl, rfl, nofun, ?_⟩
      rw [retriggers_eq_flatMap hspd]
      exact (List.append_nil _).symm
    · have hetl : s.tracks[i].etl ≠ 0 := ne_zero_of_toNat_pos (hpos.trans_le hk)
      have hbegun := ticks_of_arp (f := f) (k := k) ⟨hinv, hduties, hready⟩ (loopLeaves_of_event hrun hetl)
      rw [beginTrack_track] at hbegun
      obtain ⟨t, hticks, htime⟩ := hbegun hrun harp hspd hpitch hpos hk
      obtain ⟨hetl', helap, hcur, hplay, hplaying, hout⟩ := htime
      rw [beginTrack_track] at hetl' helap hcur
      exact ⟨t, hticks, hetl', helap, hcur, fun _ => ⟨hplay, hplaying⟩, hout⟩
  · obtain ⟨t, hticks, htime⟩ := ticks_of_arp ⟨hinv, hduties, hready⟩ hleaves hrun harp hspd hpitch hpos hk
    exact ⟨t, hticks, htime.etl, htime.elap, htime.cur, htime.play, htime.playing, htime.out⟩

end Sys2Proof.Machine
end
